-- ==== Sys2Proof/Word.lean ====
section
/-! DEFINITION. What crosses the ports of LXP-FGE: bytes, channels, and the transaction formats of 30_encoding.md R70. -/

namespace Sys2Proof

/-- A byte is 8 bits (00_scope.md R8). -/
abbrev Byte := BitVec 8

/-- The four channels, a fixed closed set (10_state.md R28). -/
inductive Channel where
  | north
  | south
  | east
  | west
deriving DecidableEq, Repr

/-- The channels in the order a service takes them (42_pulse_engine.md R164). -/
def Channel.all : List Channel := [.north, .south, .east, .west]

/-- FSTATE, the framer state (10_state.md R21). -/
inductive FState where
  | idle
  | collecting
deriving DecidableEq, Repr

/-- What the decoder reads: the formats of 30_encoding.md R70, and the internal event that calls AR. -/
inductive Transaction where
  /-- BYTE: one byte on BYTE_IN. -/
  | byte (b : Byte)
  /-- COMMAND: a complete command, made by FR and not a port (R70). -/
  | command (cmd : List Byte)
  /-- The internal `ack_event()` of 41_guide_decode.md R142, not a port. -/
  | ackEvent
  /-- REQ: `DIR[1:0]` and `DUR[31:0]` (R77). -/
  | req (dir : BitVec 2) (dur : BitVec 32)
  /-- SERVICE: a strobe (R78). -/
  | service
  /-- NOW: the new time value (R78). -/
  | now (t : Nat)
  /-- RESET: a strobe (R78). -/
  | reset
deriving DecidableEq, Repr

/-- Whether ENV can offer the transaction on a port (10_state.md R34); FR and AR make the others inside the block. -/
def Transaction.onPort : Transaction → Bool
  | .byte _ => true
  | .command _ => false
  | .ackEvent => false
  | .req _ _ => true
  | .service => true
  | .now _ => true
  | .reset => true

/-- One entry of ENV's schedule: a transaction, or two at the same instant (`PAR` of 30_encoding.md R83). -/
inductive Arrival where
  | one (t : Transaction)
  | par (t u : Transaction)
deriving DecidableEq, Repr

end Sys2Proof
end

