-- ==== Sys2Proof/Config.lean ====
section
/-! DEFINITION. The implementation parameters of LXP-FGE (00_scope.md R6, R7) and the model's one free value. -/

namespace Sys2Proof

/-- MODE (10_state.md R25). -/
inductive Mode where
  | emulator
  | fs2adapter
deriving DecidableEq, Repr

/-- PULSE_TIMING_VARIANT: A_DEADLINE or B_COUNTDOWN (00_scope.md R6). -/
inductive TimingVariant where
  | deadline
  | countdown
deriving DecidableEq, Repr

/-- NUMERAL_MODE: DIGITS_ONLY or C_STRTOL (00_scope.md R6). -/
inductive NumeralMode where
  | digitsOnly
  | cStrtol
deriving DecidableEq, Repr

/-- The parameters of 00_scope.md R6, fixed before reset is released. NUM_CHANNELS is 4, the type `Channel`. -/
structure Config where
  maxCmdLen : Nat
  defaultGuideMs : Nat
  tickMs : Nat
  timing : TimingVariant
  mode : Mode
  numeralMode : NumeralMode
  timeWidth : Nat
  timerWidth : Nat
  durMax : Nat
deriving DecidableEq, Repr

namespace Config

/-- The defaults of 00_scope.md R6; MODE has none, so it is an argument. -/
def standard (mode : Mode) : Config where
  maxCmdLen := 64
  defaultGuideMs := 1000
  tickMs := 10
  timing := .countdown
  mode := mode
  numeralMode := .digitsOnly
  timeWidth := 32
  timerWidth := 32
  durMax := 2147483647

/-- The constraint of 00_scope.md R7 that belongs to the timing variant. -/
def timingLegal (c : Config) : Bool :=
  match c.timing with
  | .deadline => c.timerWidth == c.timeWidth && decide (c.durMax ≤ 2 ^ (c.timeWidth - 1) - 1)
  | .countdown => decide (c.durMax ≤ 2 ^ (c.timerWidth - 1) - 1) && decide (c.tickMs ≤ 2 ^ (c.timerWidth - 1))

/-- The value ranges of 00_scope.md R6 and the constraints of R7. -/
def legal (c : Config) : Bool :=
  decide (5 ≤ c.maxCmdLen) && decide (c.defaultGuideMs ≤ c.durMax) && decide (1 ≤ c.tickMs) &&
    decide (2 ≤ c.timeWidth) && decide (2 ≤ c.timerWidth) && c.timingLegal

/-- FREE VALUE: which of two transactions at the same instant is taken first (20_memory.md R57 leaves it open);
`true` takes the one written first. Applied to the counter `State.draws`. Log entry 6. -/
opaque freeOrder : Nat → Bool

end Config

end Sys2Proof
end

