-- ==== Sys2Proof/Machine/Ascii.lean ====
section
/-! DEFINITION. The byte values of the characters the rules name (00_scope.md R10) and the byte classes they need. -/

namespace Sys2Proof.Ascii

/-- The ACK probe, the one byte the source gives by value (30_encoding.md R71). -/
def ack : Byte := 0x06
/-- `':'`, the start marker. -/
def colon : Byte := 0x3A
/-- `'#'`, the end marker. -/
def hash : Byte := 0x23
/-- `'M'`. -/
def upperM : Byte := 0x4D
/-- `'g'`. -/
def lowerG : Byte := 0x67
/-- `'n'`. -/
def lowerN : Byte := 0x6E
/-- `'s'`. -/
def lowerS : Byte := 0x73
/-- `'e'`. -/
def lowerE : Byte := 0x65
/-- `'w'`. -/
def lowerW : Byte := 0x77
/-- `'G'`, the reply to an ACK probe (30_encoding.md R80). -/
def upperG : Byte := 0x47
/-- `'+'`. -/
def plus : Byte := 0x2B
/-- `'-'`. -/
def minus : Byte := 0x2D

/-- A decimal digit, 0x30 to 0x39 (30_encoding.md R79). -/
def isDigit (b : Byte) : Bool := decide (0x30 ≤ b.toNat) && decide (b.toNat ≤ 0x39)

/-- The white space `numeral_C_STRTOL` skips (30_encoding.md R79). -/
def isSpace (b : Byte) : Bool :=
  b == 0x20 || b == 0x09 || b == 0x0A || b == 0x0B || b == 0x0C || b == 0x0D

/-- A byte that may stand inside a command: neither 0x06 nor `'#'` (30_encoding.md R73). -/
def isBody (b : Byte) : Bool := b != ack && b != hash

end Sys2Proof.Ascii
end

