-- ==== Sys2Proof/Syntax.lean ====
section
/-! DEFINITION. The instructions: one constructor for each of the 16 rows of spec/opcode_table.json (30_encoding.md R84). -/

namespace Sys2Proof

/-- The operations LXP-FGE decodes. A byte operand is the byte taken; `digits` is the digit span `cmd[4..L-2]` and
`body` is `cmd[1..L-2]` of a command (30_encoding.md R76, R73). -/
inductive Instr where
  /-- FR_ACK: the ACK probe (40_framer.md R101). -/
  | frAck
  /-- FR_START: `':'` in Idle (40_framer.md R102). -/
  | frStart
  /-- FR_DISCARD: any other byte in Idle (40_framer.md R103). -/
  | frDiscard (b : Byte)
  /-- FR_OVERFLOW: a byte that would make the command too long (40_framer.md R104). -/
  | frOverflow (b : Byte)
  /-- FR_END: `'#'` in Collecting (40_framer.md R105). -/
  | frEnd
  /-- FR_APPEND: a data byte (40_framer.md R106). -/
  | frAppend (b : Byte)
  /-- GD_MGN: guide North (41_guide_decode.md R133). -/
  | gdMgn (digits : List Byte)
  /-- GD_MGS: guide South (41_guide_decode.md R134). -/
  | gdMgs (digits : List Byte)
  /-- GD_MGE: guide East (41_guide_decode.md R135). -/
  | gdMge (digits : List Byte)
  /-- GD_MGW: guide West (41_guide_decode.md R136). -/
  | gdMgw (digits : List Byte)
  /-- GD_PASS: a command passed on CMD_OUT (41_guide_decode.md R132). -/
  | gdPass (body : List Byte)
  /-- AR_REPLY: the reply to an ACK probe (41_guide_decode.md R142). -/
  | arReply
  /-- PG_REQUEST: a request on the REQ port (42_pulse_engine.md R161). -/
  | pgRequest (c : Channel) (dur : BitVec 32)
  /-- PG_SERVICE: the service tick (42_pulse_engine.md R164). -/
  | pgService
  /-- RESET (70_reset_and_hazards.md R230). -/
  | reset
  /-- ENV_NOW: a change of the time input (42_pulse_engine.md R173). -/
  | envNow (t : Nat)
deriving DecidableEq, Repr

end Sys2Proof
end

