-- ==== Sys2Proof/WellFormed.lean ====
section
/-! DEFINITION. Which operands an instruction's encoding admits; the conditions on FSTATE, LEN and MODE are the
decoder's (`rowApplies` in Decode.lean). -/

namespace Sys2Proof

/-- The operands are ones the row's encoding admits: the byte classes of 30_encoding.md R71, R72, the command format of
R73, R76 with its length bound, and the width of T (R78). -/
def wellFormed (cfg : Config) : Instr → Bool
  | .frAck => true
  | .frStart => true
  | .frDiscard b => b != Ascii.ack && b != Ascii.colon
  | .frOverflow b => b != Ascii.ack
  | .frEnd => true
  | .frAppend b => b != Ascii.ack && b != Ascii.hash
  | .gdMgn digits => digits.all Ascii.isBody && decide (digits.length + 5 ≤ cfg.maxCmdLen)
  | .gdMgs digits => digits.all Ascii.isBody && decide (digits.length + 5 ≤ cfg.maxCmdLen)
  | .gdMge digits => digits.all Ascii.isBody && decide (digits.length + 5 ≤ cfg.maxCmdLen)
  | .gdMgw digits => digits.all Ascii.isBody && decide (digits.length + 5 ≤ cfg.maxCmdLen)
  | .gdPass body => body.all Ascii.isBody && decide (body.length + 2 ≤ cfg.maxCmdLen)
  | .arReply => true
  | .pgRequest _ _ => true
  | .pgService => true
  | .reset => true
  | .envNow t => decide (t < 2 ^ cfg.timeWidth)

end Sys2Proof
end

