-- ==== Sys2Proof/Decode.lean ====
section
/-! DEFINITION. The decode maps of 30_encoding.md (bytes R72, commands R76 and 41_guide_decode.md R130, ports R77, R78),
total and rejecting by name, and the encoder written from the same tables. -/

namespace Sys2Proof

/-! ### Directions (30_encoding.md R75) -/

/-- The 2-bit code of a channel. -/
def Channel.code : Channel → BitVec 2
  | .north => 0
  | .south => 1
  | .east => 2
  | .west => 3

/-- The channel of a 2-bit code; all four are used (R77). -/
def Channel.ofCode (d : BitVec 2) : Channel :=
  if d = 0 then .north else if d = 1 then .south else if d = 2 then .east else .west

/-- The command letter of a channel. -/
def Channel.letter : Channel → Byte
  | .north => Ascii.lowerN
  | .south => Ascii.lowerS
  | .east => Ascii.lowerE
  | .west => Ascii.lowerW

/-- The channel a letter selects; only the four lower-case letters select one. -/
def Channel.ofLetter (b : Byte) : Option Channel :=
  if b = Ascii.lowerN then some .north
  else if b = Ascii.lowerS then some .south
  else if b = Ascii.lowerE then some .east
  else if b = Ascii.lowerW then some .west
  else none

/-! ### Commands (30_encoding.md R73 to R76) -/

/-- The command with the body `cmd[1..L-2]`. -/
def commandOf (body : List Byte) : List Byte := Ascii.colon :: (body ++ [Ascii.hash])

/-- The body `cmd[1..L-2]`. -/
def bodyOf (cmd : List Byte) : List Byte := (cmd.drop 1).dropLast

/-- The guide command of a channel with a digit span (R76). -/
def guideCommand (c : Channel) (digits : List Byte) : List Byte :=
  commandOf (Ascii.upperM :: Ascii.lowerG :: c.letter :: digits)

/-- The digit span `cmd[4..L-2]` (R76). -/
def digitSpan (cmd : List Byte) : List Byte := (cmd.drop 4).dropLast

/-- The command format of R73. -/
def isCommand (cfg : Config) (cmd : List Byte) : Bool :=
  cmd == commandOf (bodyOf cmd) && (bodyOf cmd).all Ascii.isBody && decide (cmd.length ≤ cfg.maxCmdLen)

/-- The channel a guide command names: five bytes at least, `":Mg"`, a direction letter (41_guide_decode.md R131). -/
def guideChannel : List Byte → Option Channel
  | c0 :: c1 :: c2 :: c3 :: _ :: _ =>
    if c0 = Ascii.colon ∧ c1 = Ascii.upperM ∧ c2 = Ascii.lowerG then Channel.ofLetter c3 else none
  | _ => none

/-- The guide predicate (41_guide_decode.md R131). -/
def isGuide (cmd : List Byte) : Bool := (guideChannel cmd).isSome

/-- The guide instruction of a channel (41_guide_decode.md R133 to R136). -/
def guideInstr : Channel → List Byte → Instr
  | .north, digits => .gdMgn digits
  | .south, digits => .gdMgs digits
  | .east, digits => .gdMge digits
  | .west, digits => .gdMgw digits

/-! ### Decoding -/

/-- What the decoder reads beside the transaction: the configuration, FSTATE and LEN. -/
structure Context where
  config : Config
  fstate : FState
  len : Nat
deriving DecidableEq, Repr

/-- Why a transaction is none the block can be given. -/
inductive DecodeError where
  /-- A COMMAND that is not of the format of 30_encoding.md R73; FR makes none such. -/
  | notACommand
  /-- A NOW value of more than TIME_WIDTH bits; the port has no wires for it (30_encoding.md R78). -/
  | timeTooWide
deriving DecidableEq, Repr

/-- The byte decode map (30_encoding.md R72, 40_framer.md R100). Every byte decodes in every framer state (R81). A LEN
above MAX_CMD_LEN, which no run reaches, is taken as full (log entry 9). -/
def decodeByte (k : Context) (b : Byte) : Instr :=
  if b = Ascii.ack then .frAck
  else
    match k.fstate with
    | .idle => if b = Ascii.colon then .frStart else .frDiscard b
    | .collecting =>
      if k.config.maxCmdLen ≤ k.len then .frOverflow b
      else if b = Ascii.hash then .frEnd
      else .frAppend b

/-- The classification of a command of the format R73 (41_guide_decode.md R130, R139). -/
def classify (cfg : Config) (cmd : List Byte) : Instr :=
  match cfg.mode with
  | .emulator => .gdPass (bodyOf cmd)
  | .fs2adapter =>
    match guideChannel cmd with
    | some c => guideInstr c (digitSpan cmd)
    | none => .gdPass (bodyOf cmd)

/-- The decoder, over the formats of 30_encoding.md R70. -/
def decode (k : Context) : Transaction → Except DecodeError Instr
  | .byte b => .ok (decodeByte k b)
  | .command cmd => if isCommand k.config cmd then .ok (classify k.config cmd) else .error .notACommand
  | .ackEvent => .ok .arReply
  | .req dir dur => .ok (.pgRequest (Channel.ofCode dir) dur)
  | .service => .ok .pgService
  | .now t => if t < 2 ^ k.config.timeWidth then .ok (.envNow t) else .error .timeTooWide
  | .reset => .ok .reset

/-- The condition on FSTATE, LEN and MODE under which a row is taken (30_encoding.md R72, 41_guide_decode.md R130). -/
def rowApplies (k : Context) : Instr → Bool
  | .frAck => true
  | .frStart => k.fstate == .idle
  | .frDiscard _ => k.fstate == .idle
  | .frOverflow _ => k.fstate == .collecting && decide (k.config.maxCmdLen ≤ k.len)
  | .frEnd => k.fstate == .collecting && decide (k.len < k.config.maxCmdLen)
  | .frAppend _ => k.fstate == .collecting && decide (k.len < k.config.maxCmdLen)
  | .gdMgn _ => k.config.mode == .fs2adapter
  | .gdMgs _ => k.config.mode == .fs2adapter
  | .gdMge _ => k.config.mode == .fs2adapter
  | .gdMgw _ => k.config.mode == .fs2adapter
  | .gdPass body => k.config.mode == .emulator || !isGuide (commandOf body)
  | .arReply => true
  | .pgRequest _ _ => true
  | .pgService => true
  | .reset => true
  | .envNow _ => true

/-- An instruction the decoder can give in a context: its operands are well-formed and its row is taken. -/
def selected (k : Context) (i : Instr) : Bool := wellFormed k.config i && rowApplies k i

/-! ### Encoding -/

/-- The transaction of an instruction, from the encodings of spec/opcode_table.json. -/
def encode : Instr → Transaction
  | .frAck => .byte Ascii.ack
  | .frStart => .byte Ascii.colon
  | .frDiscard b => .byte b
  | .frOverflow b => .byte b
  | .frEnd => .byte Ascii.hash
  | .frAppend b => .byte b
  | .gdMgn digits => .command (guideCommand .north digits)
  | .gdMgs digits => .command (guideCommand .south digits)
  | .gdMge digits => .command (guideCommand .east digits)
  | .gdMgw digits => .command (guideCommand .west digits)
  | .gdPass body => .command (commandOf body)
  | .arReply => .ackEvent
  | .pgRequest c dur => .req c.code dur
  | .pgService => .service
  | .reset => .reset
  | .envNow t => .now t

/-! ### The words of spec/opcode_table.json (30_encoding.md R76, R84) -/

/-- The four bytes of a big-endian word, `cmd[0]` in the top bits (R76). -/
def bytesOfWord (w : Nat) : List Byte :=
  [BitVec.ofNat 8 (w / 2 ^ 24), BitVec.ofNat 8 (w / 2 ^ 16), BitVec.ofNat 8 (w / 2 ^ 8), BitVec.ofNat 8 w]

/-- Bytes up to the first `'#'`, which ends a command (R74); where there is none, one is put at the end. -/
def throughHash : List Byte → List Byte
  | [] => [Ascii.hash]
  | b :: rest => if b = Ascii.hash then [b] else b :: throughHash rest

/-- The transaction of a table word: 8 bits are a BYTE, 32 bits the packing of `cmd[0..3]` of a COMMAND whose digit span
is empty, 40 bits `DIR[1:0] DUR[31:0]` of a REQ. The strobes have no bits. Log entry 13. -/
def tableTransaction (nbits w : Nat) : Option Transaction :=
  if nbits = 8 then (if w < 2 ^ 8 then some (.byte (BitVec.ofNat 8 w)) else none)
  else if nbits = 32 then (if w < 2 ^ 32 then some (.command (throughHash (bytesOfWord w))) else none)
  else if nbits = 40 then
    (if w < 2 ^ 34 then some (.req (BitVec.ofNat 2 (w / 2 ^ 32)) (BitVec.ofNat 32 w)) else none)
  else none

/-- The framer state in which a table word's row is taken: Collecting for `'#'` (row FR_END), else Idle. -/
def tableFState : Transaction → FState
  | .byte b => if b = Ascii.hash then .collecting else .idle
  | _ => .idle

/-- The context in which a table word is read: the defaults of 00_scope.md R6, and MODE = FS2ADAPTER as the guide rows
have it. Log entry 13. -/
def tableContext (t : Transaction) : Context where
  config := Config.standard .fs2adapter
  fstate := tableFState t
  len := match tableFState t with
    | .idle => 0
    | .collecting => 1

/-- The instruction the decoder reads from a table word (30_encoding.md R84). -/
def decodeTableWord (nbits w : Nat) : Option Instr :=
  match tableTransaction nbits w with
  | none => none
  | some t =>
    match decode (tableContext t) t with
    | .ok i => some i
    | .error _ => none

end Sys2Proof
end

