-- ==== Sys2Proof/Machine/State.lean ====
section
/-! DEFINITION. The state of LXP-FGE (10_state.md), its reset, and the reasons a step can stop. -/

namespace Sys2Proof.Machine

/-- BUF as the byte list of its LEN valid bytes (10_state.md R22; log entry 7). It has no addresses (20_memory.md R50). -/
abbrev Memory := List Byte

/-- The canonical form of BUF: no more bytes than the array has. Equal buffers are equal lists by construction. -/
def Memory.wf (maxCmdLen : Nat) (m : Memory) : Bool := decide (m.length ≤ maxCmdLen)

/-- One pulse channel: ACTIVE[c] and the TIMER_WIDTH-bit pattern TIMER[c] (10_state.md R29, R30; log entry 8). -/
structure Pulse where
  active : Bool
  timer : Nat
deriving DecidableEq, Repr

/-- The channel array of PG (42_pulse_engine.md R160). -/
structure PulseArray where
  north : Pulse
  south : Pulse
  east : Pulse
  west : Pulse
deriving DecidableEq, Repr

/-- The two levels of an ST4 line (10_state.md R31). -/
inductive Level where
  | drivenLow
  | hiZ
deriving DecidableEq, Repr

/-- An event of the output trace OUT (10_state.md R36). -/
inductive OutEvent where
  /-- `CMD(bytes)` on CMD_OUT. -/
  | cmd (bytes : List Byte)
  /-- `REPLY(bytes)` on REPLY_OUT. -/
  | reply (bytes : List Byte)
deriving DecidableEq, Repr

/-- An event of the observation list OBS (10_state.md R37, 60_exceptions.md R201). -/
inductive ObsEvent where
  | overflowDrop
  | defaultDuration
  | nonnumericDuration
  | saturatedDuration
deriving DecidableEq, Repr

/-- Everything the spec gives LXP-FGE, and three fields of the model's own: `config` (log entry 1), `pending` (log entry
4) and `draws` (log entry 6). -/
structure State where
  /-- MODE and the parameters (00_scope.md R6); no step changes them. -/
  config : Config
  /-- FSTATE (10_state.md R21). -/
  fstate : FState
  /-- BUF[0..LEN-1] (10_state.md R22). -/
  buf : Memory
  /-- ACTIVE and TIMER (10_state.md R29, R30). -/
  pulses : PulseArray
  /-- NOW, a TIME_WIDTH-bit pattern (10_state.md R33). -/
  now : Nat
  /-- OUT, first event first (10_state.md R36). -/
  out : List OutEvent
  /-- OBS, first event first (10_state.md R37). -/
  obs : List ObsEvent
  /-- ENV's schedule: the transactions not yet taken, next one first (10_state.md R41). -/
  pending : List Arrival
  /-- How many same-instant pairs have been ordered: the argument of `Config.freeOrder`. -/
  draws : Nat
deriving DecidableEq, Repr

/-- LXP-FGE raises no exception and never stops (60_exceptions.md R200): there is no fault (log entry 18). -/
inductive Fault where
deriving DecidableEq, Repr

/-- Why the model gives a transaction no meaning. -/
inductive Refusal where
  /-- An instruction whose meaning is not written yet; raised by `exec`'s arms only. Safe. -/
  | notModelled (mnemonic : String)
  /-- A configuration that breaks 00_scope.md R7; raised by every meaning, as R7 asks. Safe. -/
  | illegalConfiguration
  /-- An instruction the decode map does not give in this state (30_encoding.md R72, 41_guide_decode.md R130); raised by
  every meaning, never in a step of a decoded transaction. Safe (log entry 10). -/
  | notSelected
  /-- What stands for the step is no transaction of the block; raised by the step. Safe (log entries 5, 14). -/
  | undecodable (why : DecodeError)
  /-- `refuse(NUMERAL_OUT_OF_RANGE)` of 30_encoding.md R79; raised by the guide operations with NUMERAL_MODE = C_STRTOL,
  and by FR_END when it dispatches to one. Safe (log entry 12). -/
  | numeralOutOfRange
deriving DecidableEq, Repr

/-- The outcome of a transaction. -/
abbrev Result := Host.Outcome State Fault Refusal

/-- ACTIVE = 0 and TIMER = 0 (10_state.md R38). -/
def Pulse.reset : Pulse := ⟨false, 0⟩

/-- Every channel at its reset value. -/
def PulseArray.reset : PulseArray := ⟨Pulse.reset, Pulse.reset, Pulse.reset, Pulse.reset⟩

/-- The state right after reset (10_state.md R38), for a configuration, a time and a schedule of ENV. -/
def State.resetFor (cfg : Config) (now : Nat) (pending : List Arrival) : State where
  config := cfg
  fstate := .idle
  buf := []
  pulses := PulseArray.reset
  now := now
  out := []
  obs := []
  pending := pending
  draws := 0

/-- The machine right after reset: the defaults of 00_scope.md R6, MODE = FS2ADAPTER (log entry 2), NOW = 0 (log entry
3), and no transaction offered yet. -/
def State.reset : State := State.resetFor (Config.standard .fs2adapter) 0 []

/-- LEN (10_state.md R23). -/
def State.len (s : State) : Nat := s.buf.length

/-- What the decoder reads of the state. -/
def State.context (s : State) : Context := ⟨s.config, s.fstate, s.len⟩

end Sys2Proof.Machine
end

