-- ==== Sys2Proof/Machine/Operands.lean ====
section
/-! DEFINITION. The operand forms: register patterns and their signed reading (00_scope.md R8), the duration numeral in
both modes (30_encoding.md R79) and its default (41_guide_decode.md R138). -/

namespace Sys2Proof.Machine

/-- `wrap_N(v)` (00_scope.md R8). -/
def wrap (n : Nat) (v : Int) : Nat := (v % ((2 ^ n : Nat) : Int)).toNat

/-- `signed_N(u)` (00_scope.md R8). -/
def signed (n : Nat) (u : Nat) : Int := if u < 2 ^ (n - 1) then (u : Int) else (u : Int) - ((2 ^ n : Nat) : Int)

/-- The leading decimal digits of a byte string. -/
def leadingDigits (s : List Byte) : List Byte := s.takeWhile Ascii.isDigit

/-- The value of a string of digits, most significant first, exact. -/
def decimal (digits : List Byte) : Nat := digits.foldl (fun acc b => acc * 10 + (b.toNat - 0x30)) 0

/-- `numeral_DIGITS_ONLY` (30_encoding.md R79): the value and the event it leaves in OBS. -/
def numeralDigitsOnly (durMax : Nat) (s : List Byte) : Nat × Option ObsEvent :=
  match leadingDigits s with
  | [] => (0, some .nonnumericDuration)
  | ds => if durMax < decimal ds then (durMax, some .saturatedDuration) else (decimal ds, none)

/-- The optional sign of `numeral_C_STRTOL`: the sign, and what follows it. -/
def takeSign : List Byte → Int × List Byte
  | [] => (1, [])
  | b :: rest => if b = Ascii.plus then (1, rest) else if b = Ascii.minus then (-1, rest) else (1, b :: rest)

/-- `numeral_C_STRTOL` (30_encoding.md R79); `none` is `refuse(NUMERAL_OUT_OF_RANGE)`. -/
def numeralCStrtol (durMax : Nat) (s : List Byte) : Option (Nat × Option ObsEvent) :=
  let signAndRest := takeSign (s.dropWhile Ascii.isSpace)
  match leadingDigits signAndRest.2 with
  | [] => some (0, some .nonnumericDuration)
  | ds =>
    let v : Int := signAndRest.1 * (decimal ds : Int)
    if v < 0 ∨ (durMax : Int) < v then none else some (v.toNat, none)

/-- The numeral of a digit span, per NUMERAL_MODE. -/
def numeral (cfg : Config) (s : List Byte) : Option (Nat × Option ObsEvent) :=
  match cfg.numeralMode with
  | .digitsOnly => some (numeralDigitsOnly cfg.durMax s)
  | .cStrtol => numeralCStrtol cfg.durMax s

/-- `parse_duration` (41_guide_decode.md R138): the duration and the event it leaves in OBS. -/
def parseDuration (cfg : Config) (cmd : List Byte) : Option (Nat × Option ObsEvent) :=
  if cmd.length ≤ 5 then some (cfg.defaultGuideMs, some .defaultDuration) else numeral cfg (digitSpan cmd)

end Sys2Proof.Machine
end

