-- ==== Sys2Proof/Machine/Flags.lean ====
section
/-! DEFINITION. The flags ACTIVE[c]: how a request sets them, how a service clears them, and the lines they drive
(10_state.md R31, 42_pulse_engine.md R162 to R166). -/

namespace Sys2Proof.Machine

/-- The line a channel drives (10_state.md R31). -/
def Pulse.level (p : Pulse) : Level := if p.active then .drivenLow else .hiZ

/-- The expiry test of variant A: `signed_W(wrap_W(NOW - TIMER[c])) >= 0` (42_pulse_engine.md R165). -/
def deadlineReached (cfg : Config) (now timer : Nat) : Bool :=
  decide (0 ≤ signed cfg.timeWidth (wrap cfg.timeWidth ((now : Int) - (timer : Int))))

/-- The expiry test of variant B: `TIMER[c] <= 0`, read as `signed_TW` (42_pulse_engine.md R166). -/
def countExpired (cfg : Config) (timer : Nat) : Bool := decide (signed cfg.timerWidth timer ≤ 0)

/-- `REQ_A` on one channel (42_pulse_engine.md R162). -/
def requestDeadline (cfg : Config) (now d : Nat) : Pulse where
  active := decide (d ≠ 0)
  timer := wrap cfg.timeWidth ((now : Int) + (d : Int))

/-- `REQ_B` on one channel (42_pulse_engine.md R163). -/
def requestCountdown (d : Nat) : Pulse := ⟨true, d⟩

/-- The channel a request leaves, per PULSE_TIMING_VARIANT (42_pulse_engine.md R161). -/
def requestPulse (cfg : Config) (now d : Nat) : Pulse :=
  match cfg.timing with
  | .deadline => requestDeadline cfg now d
  | .countdown => requestCountdown d

/-- `SVC_A` on one channel (42_pulse_engine.md R165). -/
def serviceDeadline (cfg : Config) (now : Nat) (p : Pulse) : Pulse :=
  if p.active && deadlineReached cfg now p.timer then { p with active := false } else p

/-- The counter `SVC_B` leaves: `TIMER[c] - TICK_MS` as a TIMER_WIDTH-bit pattern (42_pulse_engine.md R166). -/
def countDown (cfg : Config) (timer : Nat) : Nat :=
  wrap cfg.timerWidth (signed cfg.timerWidth timer - (cfg.tickMs : Int))

/-- `SVC_B` on one channel (42_pulse_engine.md R166). -/
def serviceCountdown (cfg : Config) (p : Pulse) : Pulse :=
  if p.active then ⟨!countExpired cfg (countDown cfg p.timer), countDown cfg p.timer⟩ else p

/-- The channel a service leaves, per PULSE_TIMING_VARIANT (42_pulse_engine.md R164). -/
def servicePulse (cfg : Config) (now : Nat) (p : Pulse) : Pulse :=
  match cfg.timing with
  | .deadline => serviceDeadline cfg now p
  | .countdown => serviceCountdown cfg p

end Sys2Proof.Machine
end

