-- ==== Sys2Proof/Machine/Ops.lean ====
section
/-! DEFINITION. The named operations over the state that the meanings share. No exception is ever taken or returned from
(60_exceptions.md R200, R205, R206), so no operation does either. -/

namespace Sys2Proof.Machine

/-! ### The guard of every transaction -/

/-- What every meaning does first: refuse a configuration that breaks 00_scope.md R7, and refuse an instruction the
decode maps do not give in this state (log entries 10, 11). -/
def transact (i : Instr) (s : State) (k : State → Result) : Result :=
  if s.config.legal then (if selected s.context i then k s else .refused .notSelected)
  else .refused .illegalConfiguration

/-! ### BUF (20_memory.md R51, R52) -/

/-- `MemRead(i, 1)`: the byte at index i, none at an index of LEN or above, which holds no value (10_state.md R22). -/
def memRead (s : State) (i : Nat) : Option Byte := s.buf[i]?

/-- `append(b)` (20_memory.md R51). -/
def append (b : Byte) (s : State) : State := { s with buf := s.buf ++ [b] }

/-- `command()` (20_memory.md R52). -/
def command (s : State) : List Byte := s.buf

/-- `FSTATE <- Idle; LEN <- 0` (40_framer.md R104, R105). -/
def clearFramer (s : State) : State := { s with fstate := .idle, buf := [] }

/-! ### Outputs (00_scope.md R9) -/

/-- `emit PORT(v)`. -/
def emit (e : OutEvent) (s : State) : State := { s with out := s.out ++ [e] }

/-- `observe EV`, or nothing where there is no event. -/
def observe (e : Option ObsEvent) (s : State) : State := { s with obs := s.obs ++ e.toList }

/-- `ack_event()` (41_guide_decode.md R142). -/
def ackEvent (s : State) : State := emit (.reply [Ascii.upperG]) s

/-! ### The channels (42_pulse_engine.md R160) -/

/-- Channel c of the array. -/
def PulseArray.get (a : PulseArray) : Channel → Pulse
  | .north => a.north
  | .south => a.south
  | .east => a.east
  | .west => a.west

/-- The array with channel c replaced. -/
def PulseArray.set (a : PulseArray) (c : Channel) (p : Pulse) : PulseArray :=
  match c with
  | .north => { a with north := p }
  | .south => { a with south := p }
  | .east => { a with east := p }
  | .west => { a with west := p }

/-- ACTIVE[c] and TIMER[c]. -/
def State.pulse (s : State) (c : Channel) : Pulse := s.pulses.get c

/-- The state with channel c replaced. -/
def State.setPulse (s : State) (c : Channel) (p : Pulse) : State := { s with pulses := s.pulses.set c p }

/-- ST4_OUT[c] (10_state.md R31). -/
def State.st4 (s : State) (c : Channel) : Level := (s.pulse c).level

/-- `request(c, dur)` (42_pulse_engine.md R161). -/
def request (c : Channel) (dur : Nat) (s : State) : State :=
  (observe (if s.config.durMax < dur then some .saturatedDuration else none) s).setPulse c
    (requestPulse s.config s.now (min dur s.config.durMax))

/-- One turn of the service loop (42_pulse_engine.md R164). -/
def serviceChannel (c : Channel) (s : State) : State := s.setPulse c (servicePulse s.config s.now (s.pulse c))

/-- `SERVICE()` over the channels in a given order; the rule's order is `Channel.all`. -/
def service (order : List Channel) (s : State) : State := order.foldl (fun s c => serviceChannel c s) s

/-! ### Dispatch (40_framer.md R107) and GD (41_guide_decode.md) -/

/-- `GD_PASS` (41_guide_decode.md R132). -/
def pass (cmd : List Byte) (s : State) : State := emit (.cmd cmd) s

/-- `GD_GUIDE` (41_guide_decode.md R137): parse the duration, leave its event in OBS, make the request. -/
def guide (c : Channel) (cmd : List Byte) (s : State) : Result :=
  match parseDuration s.config cmd with
  | none => .refused .numeralOutOfRange
  | some (d, ev) => .next (request c d (observe ev s))

/-- `GD`, the classification of a dispatched command (41_guide_decode.md R130). -/
def dispatch (cmd : List Byte) (s : State) : Result :=
  match s.config.mode, guideChannel cmd with
  | .fs2adapter, some c => guide c cmd s
  | .fs2adapter, none => .next (pass cmd s)
  | .emulator, _ => .next (pass cmd s)

/-! ### Reset (70_reset_and_hazards.md R230) -/

/-- `RESET()`. NOW, MODE and the parameters are not changed; the schedule is ENV's. -/
def resetBlock (s : State) : State :=
  { s with fstate := .idle, buf := [], pulses := PulseArray.reset, out := [], obs := [] }

end Sys2Proof.Machine
end

