-- ==== Sys2Proof/Machine/Engine.lean ====
section
/-! DEFINITION. The meanings of PG's port operations (42_pulse_engine.md R161, R164). -/

namespace Sys2Proof.Machine

/-- PG_REQUEST (42_pulse_engine.md R161). -/
def execPgRequest (c : Channel) (dur : BitVec 32) (s : State) : Result :=
  transact (.pgRequest c dur) s fun s => .next (request c dur.toNat s)

/-- PG_SERVICE (42_pulse_engine.md R164). -/
def execPgService (s : State) : Result :=
  transact .pgService s fun s => .next (service Channel.all s)

end Sys2Proof.Machine
end

