-- ==== Sys2Proof/Machine/Framer.lean ====
section
/-! DEFINITION. The meanings of the framer's operations (40_framer.md R101 to R106). -/

namespace Sys2Proof.Machine

/-- FR_ACK (40_framer.md R101). -/
def execFrAck (s : State) : Result :=
  transact .frAck s fun s => .next (ackEvent s)

/-- FR_START (40_framer.md R102). -/
def execFrStart (s : State) : Result :=
  transact .frStart s fun s => .next (append Ascii.colon { s with fstate := .collecting })

/-- FR_DISCARD (40_framer.md R103): the byte is consumed and forgotten. -/
def execFrDiscard (b : Byte) (s : State) : Result :=
  transact (.frDiscard b) s fun s => .next s

/-- FR_OVERFLOW (40_framer.md R104): the byte is consumed and not re-examined. -/
def execFrOverflow (b : Byte) (s : State) : Result :=
  transact (.frOverflow b) s fun s => .next (observe (some .overflowDrop) (clearFramer s))

/-- FR_END (40_framer.md R105): the terminator is part of the command, and dispatch is in the same transaction. -/
def execFrEnd (s : State) : Result :=
  transact .frEnd s fun s =>
    dispatch (command (append Ascii.hash s)) (clearFramer (append Ascii.hash s))

/-- FR_APPEND (40_framer.md R106). -/
def execFrAppend (b : Byte) (s : State) : Result :=
  transact (.frAppend b) s fun s => .next (append b s)

end Sys2Proof.Machine
end

