-- ==== Sys2Proof/Machine/Guide.lean ====
section
/-! DEFINITION. The meanings of GD's and AR's operations (41_guide_decode.md R132 to R137, R142). -/

namespace Sys2Proof.Machine

/-- GD_MGN (41_guide_decode.md R133). -/
def execGdMgn (digits : List Byte) (s : State) : Result :=
  transact (.gdMgn digits) s fun s => guide .north (guideCommand .north digits) s

/-- GD_MGS (41_guide_decode.md R134). -/
def execGdMgs (digits : List Byte) (s : State) : Result :=
  transact (.gdMgs digits) s fun s => guide .south (guideCommand .south digits) s

/-- GD_MGE (41_guide_decode.md R135). -/
def execGdMge (digits : List Byte) (s : State) : Result :=
  transact (.gdMge digits) s fun s => guide .east (guideCommand .east digits) s

/-- GD_MGW (41_guide_decode.md R136). -/
def execGdMgw (digits : List Byte) (s : State) : Result :=
  transact (.gdMgw digits) s fun s => guide .west (guideCommand .west digits) s

/-- GD_PASS (41_guide_decode.md R132). -/
def execGdPass (body : List Byte) (s : State) : Result :=
  transact (.gdPass body) s fun s => .next (pass (commandOf body) s)

/-- AR_REPLY (41_guide_decode.md R142). -/
def execArReply (s : State) : Result :=
  transact .arReply s fun s => .next (ackEvent s)

end Sys2Proof.Machine
end

