-- ==== Sys2Proof/Machine/System.lean ====
section
/-! DEFINITION. The meanings of ENV's system transactions: RESET (70_reset_and_hazards.md R230) and the NOW change
(42_pulse_engine.md R173). -/

namespace Sys2Proof.Machine

/-- RESET (70_reset_and_hazards.md R230). -/
def execReset (s : State) : Result :=
  transact .reset s fun s => .next (resetBlock s)

/-- ENV_NOW (42_pulse_engine.md R173): a deadline that passes does nothing until the next service. -/
def execEnvNow (t : Nat) (s : State) : Result :=
  transact (.envNow t) s fun s => .next { s with now := t }

end Sys2Proof.Machine
end

