-- ==== Sys2Proof/Machine/Dispatch.lean ====
section
/-! DEFINITION. One arm for each instruction. -/

namespace Sys2Proof.Machine

def exec (i : Instr) (s : State) : Host.Outcome State Fault Refusal :=
  match i with
  | .frAck => Sys2Proof.Machine.execFrAck s
  | .frStart => Sys2Proof.Machine.execFrStart s
  | .frDiscard b => Sys2Proof.Machine.execFrDiscard b s
  | .frOverflow b => Sys2Proof.Machine.execFrOverflow b s
  | .frEnd => Sys2Proof.Machine.execFrEnd s
  | .frAppend b => Sys2Proof.Machine.execFrAppend b s
  | .gdMgn digits => Sys2Proof.Machine.execGdMgn digits s
  | .gdMgs digits => Sys2Proof.Machine.execGdMgs digits s
  | .gdMge digits => Sys2Proof.Machine.execGdMge digits s
  | .gdMgw digits => Sys2Proof.Machine.execGdMgw digits s
  | .gdPass body => Sys2Proof.Machine.execGdPass body s
  | .arReply => Sys2Proof.Machine.execArReply s
  | .pgRequest c dur => Sys2Proof.Machine.execPgRequest c dur s
  | .pgService => Sys2Proof.Machine.execPgService s
  | .reset => Sys2Proof.Machine.execReset s
  | .envNow t => Sys2Proof.Machine.execEnvNow t s

end Sys2Proof.Machine
end

