-- ==== Sys2Proof/Machine/Fetch.lean ====
section
/-! DEFINITION. Taking the next transaction of ENV's schedule, and placing a table word there (log entries 4, 6, 13). -/

namespace Sys2Proof.Machine

/-- The next transaction and the state left by taking it from the schedule. Of two at the same instant either may come
first (20_memory.md R57): the free value `Config.freeOrder` says which, and the other one is next. -/
def fetch (s : State) : Option (Transaction × State) :=
  match s.pending with
  | [] => none
  | .one t :: rest => some (t, { s with pending := rest })
  | .par t u :: rest =>
    if Config.freeOrder s.draws then some (t, { s with pending := .one u :: rest, draws := s.draws + 1 })
    else some (u, { s with pending := .one t :: rest, draws := s.draws + 1 })

/-- The framer in the state in which a table word's row is taken: for `'#'` (FR_END) Collecting with room, for any other
byte but the probe (FR_START, FR_DISCARD) Idle. A framer already there is left as it is. -/
def prepareFramer (t : Transaction) (s : State) : State :=
  match t with
  | .byte b =>
    if b = Ascii.ack then s
    else if b = Ascii.hash then
      (if s.fstate = .collecting ∧ s.len < s.config.maxCmdLen then s
       else { s with fstate := .collecting, buf := [Ascii.colon] })
    else clearFramer s
  | _ => s

/-- MODE as the guide rows of the table have it, for a COMMAND. -/
def prepareMode (t : Transaction) (s : State) : State :=
  match t with
  | .command _ => { s with config := { s.config with mode := .fs2adapter } }
  | _ => s

/-- The state with a table word's transaction as the next one taken, and what its row needs; a word that is no
transaction leaves the state as it is. -/
def placeTableWord (s : State) (nbits w : Nat) : State :=
  match tableTransaction nbits w with
  | none => s
  | some t =>
    let s := prepareMode t (prepareFramer t s)
    { s with pending := .one t :: s.pending }

end Sys2Proof.Machine
end

