-- ==== Sys2Proof/Machine/Step.lean ====
section
/-! DEFINITION. The step: one transaction of ENV's schedule, decoded and executed as one atomic step (20_memory.md R55,
R57). -/

namespace Sys2Proof.Machine

/-- One transaction: decoded in the state it finds, then executed. -/
def perform (t : Transaction) (s : State) : Host.Outcome State Fault Refusal :=
  match decode s.context t with
  | .ok i => exec i s
  | .error e => .refused (.undecodable e)

/-- The step. With no transaction offered the block waits (20_memory.md R61) and nothing changes. -/
def step (s : State) : Host.Outcome State Fault Refusal :=
  match fetch s with
  | none => .next s
  | some (t, s) => perform t s

/-- The state with a table word as the next transaction (log entry 13). -/
def State.withFetchWord (s : State) (nbits w : Nat) : State := placeTableWord s nbits w

end Sys2Proof.Machine
end

