-- ==== Sys2Proof/Machine/Trace.lean ====
section
/-! DEFINITION. Sequences of transactions (20_memory.md R57) and the feeding of bytes (40_framer.md R108). -/

namespace Sys2Proof.Machine

/-- What follows a transaction that completed; a stop ends the sequence. -/
def andThen (r : Result) (k : State → Result) : Result :=
  match r with
  | .next s => k s
  | .fault f => .fault f
  | .refused e => .refused e

/-- Transactions one after the other, each in the state the one before it left. -/
def performAll : List Transaction → State → Result
  | [], s => .next s
  | t :: ts, s => andThen (perform t s) (performAll ts)

/-- `feed(bytes)` (40_framer.md R108): one BYTE transaction for each byte. -/
def feed (bytes : List Byte) (s : State) : Result := performAll (bytes.map .byte) s

/-- k services one after the other (`SERVICE xk` of 30_encoding.md R83). -/
def services (k : Nat) (s : State) : Result := performAll (List.replicate k .service) s

end Sys2Proof.Machine
end

