-- ==== Sys2Proof/Safety.lean ====
section
/-! DEFINITION. The invariants that say a state is one LXP-FGE can be in, in the terms the claims use. -/

namespace Sys2Proof.Machine

/-- The framer invariant (10_state.md R24): Idle with nothing held, or Collecting with 1 to MAX_CMD_LEN bytes of which the
first is `':'`; no byte held is 0x06 or `'#'`. -/
def FramerInv (s : State) : Prop :=
  (s.fstate = .idle → s.len = 0) ∧
  (s.fstate = .collecting → 1 ≤ s.len ∧ s.len ≤ s.config.maxCmdLen ∧ memRead s 0 = some Ascii.colon) ∧
  ∀ b ∈ s.buf, b ≠ Ascii.ack ∧ b ≠ Ascii.hash

/-- Every register holds a pattern of its width: NOW of TIME_WIDTH bits, each TIMER of TIMER_WIDTH bits (10_state.md R30,
R33). -/
def RegistersFit (s : State) : Prop :=
  s.now < 2 ^ s.config.timeWidth ∧ ∀ c, (s.pulse c).timer < 2 ^ s.config.timerWidth

/-- The counter range of variant B (42_pulse_engine.md R172): TIMER[c] in [-TICK_MS, DUR_MAX], and not negative on an
active channel. -/
def CountdownInv (s : State) : Prop :=
  s.config.timing = .countdown →
    ∀ c, -(s.config.tickMs : Int) ≤ signed s.config.timerWidth (s.pulse c).timer ∧
      signed s.config.timerWidth (s.pulse c).timer ≤ (s.config.durMax : Int) ∧
      ((s.pulse c).active = true → 0 ≤ signed s.config.timerWidth (s.pulse c).timer)

/-- A state LXP-FGE can be in: a legal configuration and the invariants above. -/
structure Safe (s : State) : Prop where
  legal : s.config.legal = true
  framer : FramerInv s
  registers : RegistersFit s
  countdown : CountdownInv s

end Sys2Proof.Machine
end

