-- ==== Sys2Proof/Certificates/Slice0/Obligations.lean ====
section
/-! DEFINITION. The statements for the provers. A docstring says which rules a statement formalises; "derived" marks one
that rests on a choice the spec marks as its own (a decision D<n> of 92_eei_decisions.md or a derived law; log entry 15)
or on a choice of the model (its log entry). -/

open Sys2Proof Sys2Proof.Machine

/-! ### What the statements say in the spec's own terms -/

namespace Sys2Proof.Spec

/-- The direction letters of 30_encoding.md R75. -/
def letterByte : Channel → Byte
  | .north => 0x6E
  | .south => 0x73
  | .east => 0x65
  | .west => 0x77

/-- The guide predicate of 41_guide_decode.md R131, with the channel the letter names. -/
abbrev GuideFor (c : Channel) (cmd : List Byte) : Prop :=
  5 ≤ cmd.length ∧ cmd[0]? = some 0x3A ∧ cmd[1]? = some 0x4D ∧ cmd[2]? = some 0x67 ∧ cmd[3]? = some (letterByte c)

/-- A guide command, whichever channel it names. -/
def Guide (cmd : List Byte) : Prop := ∃ c, GuideFor c cmd

/-- A byte that may stand inside a command (30_encoding.md R73). -/
def BodyByte (b : Byte) : Prop := b ≠ 0x06 ∧ b ≠ 0x23

/-- A decimal digit (30_encoding.md R79). -/
def Digit (b : Byte) : Prop := 0x30 ≤ b.toNat ∧ b.toNat ≤ 0x39

/-- The sum of 30_encoding.md R79 over a string of digits, the first most significant. -/
def decimalSum (ds : List Byte) : Nat :=
  ∑ i : Fin ds.length, ((ds.get i).toNat - 0x30) * 10 ^ (ds.length - 1 - i.val)

/-- The state a request of d milliseconds leaves: `REQ_A` or `REQ_B` on its channel and nothing else (42_pulse_engine.md
R162, R163). -/
def requested (c : Channel) (d : Nat) (s : State) : State :=
  { s with
    pulses := s.pulses.set c
      (match s.config.timing with
      | .deadline => ⟨decide (d ≠ 0), (s.now + d) % 2 ^ s.config.timeWidth⟩
      | .countdown => ⟨true, d⟩) }

/-- The guide operations can run: a legal configuration, FS2ADAPTER, and a digit span whose command fits. -/
def GuideReady (digits : List Byte) (s : State) : Prop :=
  s.config.legal = true ∧ s.config.mode = .fs2adapter ∧ (∀ b ∈ digits, BodyByte b) ∧
    digits.length + 5 ≤ s.config.maxCmdLen

/-- The white space of `numeral_C_STRTOL` (30_encoding.md R79). -/
def Space (b : Byte) : Prop := b = 0x20 ∨ b = 0x09 ∨ b = 0x0A ∨ b = 0x0B ∨ b = 0x0C ∨ b = 0x0D

/-- How `numeral_C_STRTOL` takes a digit span apart: white space, an optional sign, all the digits that follow (possibly
none), and the rest (30_encoding.md R79). -/
def StrtolSpan (span : List Byte) (sign : Int) (ds : List Byte) : Prop :=
  ∃ ws sg rest, span = ws ++ (sg ++ (ds ++ rest)) ∧ (∀ b ∈ ws, Space b) ∧
    (sg = [] ∧ sign = 1 ∧ (∀ b, (ds ++ rest).head? = some b → ¬ Space b ∧ b ≠ 0x2B ∧ b ≠ 0x2D) ∨
      sg = [0x2B] ∧ sign = 1 ∨ sg = [0x2D] ∧ sign = -1) ∧
    (∀ b ∈ ds, Digit b) ∧ (∀ b, rest.head? = some b → ¬ Digit b)

/-- The commands among output events. -/
def commandsOf (out : List OutEvent) : List OutEvent := out.filter fun e => match e with
  | .cmd _ => true
  | .reply _ => false

/-- The same channel c, and the same of everything that says what happens to it but requests for it. -/
structure SameFor (c : Channel) (s t : State) : Prop where
  config : s.config = t.config
  fstate : s.fstate = t.fstate
  buf : s.buf = t.buf
  now : s.now = t.now
  pulse : s.pulse c = t.pulse c

/-- Not a request for another channel than c: neither a REQ of its code nor, in FS2ADAPTER, a guide command of its
letter. -/
def concerns (mode : Mode) (c : Channel) : Transaction → Bool
  | .req dir _ => decide (Channel.ofCode dir = c)
  | .command cmd => decide (¬ (mode = .fs2adapter ∧ ∃ d ∈ Channel.all, d ≠ c ∧ GuideFor d cmd))
  | _ => true

/-- The same FSTATE, the same BUF and the same OUT, command for command and reply for reply. -/
def SameFraming (s t : State) : Prop := s.fstate = t.fstate ∧ s.buf = t.buf ∧ s.out = t.out

/-- What may come between two chunks of a byte stream without touching its framing: SERVICE, REQ and NOW transactions. -/
def besideTheStream : Transaction → Bool
  | .service => true
  | .req _ _ => true
  | .now _ => true
  | _ => false

/-- A byte stream in chunks, each followed by transactions of other ports. -/
def chunked (chunks : List (List Byte × List Transaction)) : List Transaction :=
  chunks.flatMap fun p => p.1.map .byte ++ p.2

/-- A time change to e milliseconds after t0 (10_state.md R33), then a service. -/
def serviceAt (width t0 e : Nat) : List Transaction := [.now ((t0 + e) % 2 ^ width), .service]

end Sys2Proof.Spec

open Sys2Proof.Spec

/-! ### Decoding and encoding -/

/-- Words of spec/opcode_table.json, written out, decode to their rows' instructions (30_encoding.md R75 to R77).
Derived: the codes of R75 are D8, how a table word is read is the model's (log entry 13). -/
def Obligations.TableWordsDecodeToTheirRows : Prop :=
  decodeTableWord 8 0x06 = some .frAck ∧ decodeTableWord 8 0x3A = some .frStart ∧
  decodeTableWord 8 0x23 = some .frEnd ∧ decodeTableWord 8 0x78 = some (.frDiscard 0x78) ∧
  decodeTableWord 32 0x3A4D676E = some (.gdMgn []) ∧ decodeTableWord 32 0x3A4D6773 = some (.gdMgs []) ∧
  decodeTableWord 32 0x3A4D6765 = some (.gdMge []) ∧ decodeTableWord 32 0x3A4D6777 = some (.gdMgw []) ∧
  decodeTableWord 32 0x3A475223 = some (.gdPass [0x47, 0x52]) ∧
  decodeTableWord 40 0x30000005A = some (.pgRequest .west 90)

/-- The byte decode map of 30_encoding.md R72, row by row, in every context 10_state.md R24 allows. Derived: the order of
rows 1, 4 and 5 rests on D5 and D6, row 6 for `':'` on D4. -/
def Obligations.ByteDecodeMapRows : Prop :=
  ∀ (k : Context) (b : Byte), k.config.legal = true → (k.fstate = .idle → k.len = 0) →
    (k.fstate = .collecting → 1 ≤ k.len ∧ k.len ≤ k.config.maxCmdLen) →
    (b = 0x06 → decode k (.byte b) = .ok .frAck) ∧
    (k.fstate = .idle → b = 0x3A → decode k (.byte b) = .ok .frStart) ∧
    (k.fstate = .idle → b ≠ 0x06 → b ≠ 0x3A → decode k (.byte b) = .ok (.frDiscard b)) ∧
    (k.fstate = .collecting → k.len = k.config.maxCmdLen → b ≠ 0x06 → decode k (.byte b) = .ok (.frOverflow b)) ∧
    (k.fstate = .collecting → k.len < k.config.maxCmdLen → b = 0x23 → decode k (.byte b) = .ok .frEnd) ∧
    (k.fstate = .collecting → k.len < k.config.maxCmdLen → b ≠ 0x06 → b ≠ 0x23 →
      decode k (.byte b) = .ok (.frAppend b))

/-- Decode and encode agree: in a context whose row conditions hold, every well-formed instruction, with every operand
its encoding admits, decodes from its encoding (30_encoding.md). Derived. -/
def Obligations.DecodeOfEncodeIsTheInstruction : Prop :=
  ∀ (k : Context) (i : Instr), wellFormed k.config i = true → rowApplies k i = true → decode k (encode i) = .ok i

/-- The other direction: what the decoder reads from a transaction is an instruction of that encoding, well-formed, whose
row conditions hold, so each transaction has one meaning (30_encoding.md). Derived. -/
def Obligations.DecodedInstructionHasThatEncoding : Prop :=
  ∀ (k : Context) (t : Transaction) (i : Instr), decode k t = .ok i →
    encode i = t ∧ wellFormed k.config i = true ∧ rowApplies k i = true

/-- MODE selects how a command decodes and nothing else (30_encoding.md R82): no other transaction decodes differently,
and none but an end byte that dispatches runs differently. No instruction changes MODE. Derived: what the modes do is
D9. -/
def Obligations.ModeSelectsOnlyHowCommandsDecode : Prop :=
  (∀ (k : Context) (body : List Byte), (∀ b ∈ body, BodyByte b) → body.length + 2 ≤ k.config.maxCmdLen →
    k.config.mode = .emulator → decode k (.command (0x3A :: (body ++ [0x23]))) = .ok (.gdPass body)) ∧
  (∀ (k : Context) (c : Channel) (digits : List Byte), (∀ b ∈ digits, BodyByte b) →
    digits.length + 5 ≤ k.config.maxCmdLen → k.config.mode = .fs2adapter →
    decode k (.command (0x3A :: 0x4D :: 0x67 :: letterByte c :: (digits ++ [0x23]))) = .ok (guideInstr c digits)) ∧
  (∀ (k : Context) (t : Transaction) (m : Mode), (∀ cmd, t ≠ .command cmd) →
    decode { k with config := { k.config with mode := m } } t = decode k t) ∧
  (∀ (s s' : State) (t : Transaction) (m : Mode), (∀ cmd, t ≠ .command cmd) → decode s.context t ≠ .ok .frEnd →
    perform t s = .next s' →
    perform t { s with config := { s.config with mode := m } } =
      .next { s' with config := { s'.config with mode := m } }) ∧
  (∀ (i : Instr) (s t : State), exec i s = .next t → t.config.mode = s.config.mode)

/-! ### The step -/

/-- A step takes the first transaction of the schedule and is `exec` of the instruction decoded there, in the state with
that transaction taken; with none offered nothing changes; one that does not decode is refused. Derived: the schedule
is the model's (log entry 4), and so is what it refuses as undecodable, a COMMAND that is none (log entry 5) and a NOW
value too wide (log entry 14). -/
def Obligations.StepRunsTheDecodedInstruction : Prop :=
  (∀ (s : State) (t : Transaction) (rest : List Arrival) (i : Instr), s.pending = .one t :: rest →
    decode s.context t = .ok i → step s = exec i { s with pending := rest }) ∧
  (∀ (s : State) (t : Transaction) (rest : List Arrival) (e : DecodeError), s.pending = .one t :: rest →
    decode s.context t = .error e → step s = .refused (.undecodable e)) ∧
  (∀ s : State, s.pending = [] → step s = .next s)

/-- A table word placed by `withFetchWord` is what the next step runs. Derived: the placing is the model's (log entry
13). -/
def Obligations.PlacedTableWordRunsAsTheNextStep : Prop :=
  ∀ (s : State) (nbits w : Nat) (i : Instr), s.config.legal = true → decodeTableWord nbits w = some i →
    step (s.withFetchWord nbits w) = exec i { s.withFetchWord nbits w with pending := s.pending }

/-- Two transactions at the same instant are taken in one of the two orders (20_memory.md R57), whatever the free value.
Derived: D18. -/
def Obligations.SameInstantPairIsTakenInEitherOrder : Prop :=
  ∀ (s : State) (t u : Transaction) (rest : List Arrival), s.pending = .par t u :: rest →
    step s = perform t { s with pending := .one u :: rest, draws := s.draws + 1 } ∨
    step s = perform u { s with pending := .one t :: rest, draws := s.draws + 1 }

/-- A REQ and a SERVICE at the same instant in variant B end, after both, either as request then service or as service
then request (42_pulse_engine.md R174). Derived: D18. -/
def Obligations.RequestRacingServiceEndsInOneOfTwoStates : Prop :=
  ∀ (s : State) (dir : BitVec 2) (dur : BitVec 32) (rest : List Arrival),
    s.config.legal = true → s.config.timing = .countdown → s.pending = .par (.req dir dur) .service :: rest →
    ∃ t, Host.Core.run core 2 s = .next t ∧ t.pending = rest ∧ t.fstate = s.fstate ∧ t.buf = s.buf ∧ t.now = s.now ∧
      t.out = s.out ∧
      let d : Int := (min dur.toNat s.config.durMax : Nat)
      let p := t.pulse (Channel.ofCode dir)
      (signed s.config.timerWidth p.timer = d - s.config.tickMs ∧ (p.active = true ↔ (s.config.tickMs : Int) < d)) ∨
      (signed s.config.timerWidth p.timer = d ∧ p.active = true)

/-- A run over a schedule of single transactions performs them one after the other, each in the state the one before it
left (20_memory.md R57). Derived: D18, log entry 4. -/
def Obligations.RunPerformsTheScheduleInOrder : Prop :=
  ∀ (ts : List Transaction) (s : State), s.pending = ts.map .one →
    Host.Core.run core ts.length s = performAll ts { s with pending := [] }

/-- Every transaction offered on a port completes, but for a C_STRTOL numeral the model refuses, and leaves a state in
which later ones can proceed (60_exceptions.md R200). -/
def Obligations.EveryPortTransactionCompletesButStrtolRefusals : Prop :=
  ∀ (s : State) (t : Transaction), s.config.legal = true → t.onPort = true →
    (∀ v, t = .now v → v < 2 ^ s.config.timeWidth) →
    (∃ s', perform t s = .next s' ∧ s'.config = s.config) ∨
    (t = .byte 0x23 ∧ s.config.numeralMode = .cStrtol ∧ perform t s = .refused .numeralOutOfRange)

/-- In a configuration outside 00_scope.md R6 and R7 every instruction is refused by that name, and in a legal one an
instruction the decode maps do not give is refused by its own. Derived: D35 and the model's choice (log entries 10, 11). -/
def Obligations.IllegalConfigurationAndUnselectedAreRefused : Prop :=
  (∀ (i : Instr) (s : State), s.config.legal = false → exec i s = .refused .illegalConfiguration) ∧
  (∀ (i : Instr) (s : State), s.config.legal = true → decode s.context (encode i) ≠ .ok i →
    exec i s = .refused .notSelected)

/-- The configurations that are not refused are those of 00_scope.md R6 and R7. Derived: D35. -/
def Obligations.LegalConfigurationsAreThoseOfTheScope : Prop :=
  ∀ c : Config, c.legal = true ↔
    5 ≤ c.maxCmdLen ∧ c.defaultGuideMs ≤ c.durMax ∧ 1 ≤ c.tickMs ∧ 2 ≤ c.timeWidth ∧ 2 ≤ c.timerWidth ∧
    (c.timing = .deadline → c.timerWidth = c.timeWidth ∧ c.durMax ≤ 2 ^ (c.timeWidth - 1) - 1) ∧
    (c.timing = .countdown → c.durMax ≤ 2 ^ (c.timerWidth - 1) - 1 ∧ c.tickMs ≤ 2 ^ (c.timerWidth - 1))

/-! ### The framer -/

/-- A probe is answered with the one byte `'G'`, whatever FSTATE, LEN and MODE are, and changes nothing else
(40_framer.md R101, 41_guide_decode.md R142, R143). Derived: D5, D29. -/
def Obligations.AckProbeRepliesGAndChangesNothingElse : Prop :=
  ∀ s : State, s.config.legal = true →
    perform (.byte 0x06) s = .next { s with out := s.out ++ [.reply [0x47]] } ∧
    exec .frAck s = .next { s with out := s.out ++ [.reply [0x47]] } ∧
    exec .arReply s = .next { s with out := s.out ++ [.reply [0x47]] }

/-- `':'` in Idle opens a command holding just that byte (40_framer.md R102). -/
def Obligations.StartMarkerOpensACommand : Prop :=
  ∀ s : State, s.config.legal = true → s.fstate = .idle → s.len = 0 →
    exec .frStart s = .next { s with fstate := .collecting, buf := [0x3A] } ∧
    perform (.byte 0x3A) s = .next { s with fstate := .collecting, buf := [0x3A] }

/-- Any other byte in Idle is consumed and changes nothing (40_framer.md R103). -/
def Obligations.OtherBytesInIdleAreDiscarded : Prop :=
  ∀ (s : State) (b : Byte), s.config.legal = true → s.fstate = .idle → b ≠ 0x06 → b ≠ 0x3A →
    exec (.frDiscard b) s = .next s ∧ perform (.byte b) s = .next s

/-- A byte at LEN = MAX_CMD_LEN drops the command, with OVERFLOW_DROP in OBS and nothing else (40_framer.md R104).
Derived: D6, D7. -/
def Obligations.OverflowDropsTheCommand : Prop :=
  ∀ (s : State) (b : Byte), s.config.legal = true → s.fstate = .collecting → s.len = s.config.maxCmdLen → b ≠ 0x06 →
    exec (.frOverflow b) s = .next { s with fstate := .idle, buf := [], obs := s.obs ++ [.overflowDrop] } ∧
    perform (.byte b) s = .next { s with fstate := .idle, buf := [], obs := s.obs ++ [.overflowDrop] }

/-- `'#'` ends the command: the framer is Idle and empty and, in the same transaction, the command with its terminator is
decoded and its operation performed (40_framer.md R105). -/
def Obligations.EndMarkerDispatchesTheWholeCommand : Prop :=
  ∀ s : State, s.config.legal = true → FramerInv s → s.fstate = .collecting → s.len < s.config.maxCmdLen →
    decode s.context (.byte 0x23) = .ok .frEnd ∧
    ∃ i, decode s.context (.command (s.buf ++ [0x23])) = .ok i ∧
      exec .frEnd s = exec i { s with fstate := .idle, buf := [] }

/-- Where the ended command is no guide command, or MODE = EMULATOR, FR_END completes with the command, unchanged, on
CMD_OUT (40_framer.md R105, 41_guide_decode.md R132). Derived from the two together. -/
def Obligations.EndMarkerPassesACommand : Prop :=
  ∀ s : State, s.config.legal = true → s.fstate = .collecting → s.len < s.config.maxCmdLen →
    (s.config.mode = .emulator ∨ ¬ Guide (s.buf ++ [0x23])) →
    exec .frEnd s = .next { s with fstate := .idle, buf := [], out := s.out ++ [.cmd (s.buf ++ [0x23])] }

/-- A data byte in Collecting with room is stored at index LEN; every byte below keeps its value (40_framer.md R106,
20_memory.md R51). Derived: `':'` as data is D4. -/
def Obligations.DataByteIsAppended : Prop :=
  ∀ (s : State) (b : Byte), s.config.legal = true → s.fstate = .collecting → s.len < s.config.maxCmdLen →
    b ≠ 0x06 → b ≠ 0x23 →
    ∃ t, exec (.frAppend b) s = .next t ∧ perform (.byte b) s = .next t ∧ t = { s with buf := t.buf } ∧
      t.len = s.len + 1 ∧ ∀ a, memRead t a = if a = s.len then some b else memRead s a

/-- Collecting ends by FR_END, FR_OVERFLOW or reset and by nothing else; until then no byte held is lost (40_framer.md
R109). -/
def Obligations.CollectingEndsOnlyByEndOverflowOrReset : Prop :=
  ∀ (i : Instr) (s t : State), s.fstate = .collecting → exec i s = .next t → i ≠ .frEnd →
    (∀ b, i ≠ .frOverflow b) → i ≠ .reset → t.fstate = .collecting ∧ s.buf <+: t.buf

/-- FSTATE, BUF and LEN change only by the framer's own rows and reset (10_state.md R35). Derived. -/
def Obligations.OnlyFramerRowsAndResetChangeTheFramer : Prop :=
  ∀ (i : Instr) (s t : State), exec i s = .next t → t.fstate ≠ s.fstate ∨ t.buf ≠ s.buf →
    i = .frStart ∨ i = .frEnd ∨ i = .reset ∨ (∃ b, i = .frOverflow b) ∨ ∃ b, i = .frAppend b

/-! ### Guide commands -/

/-- A guide command with no digit span (L = 5) requests DEFAULT_GUIDE_MS and leaves DEFAULT_DURATION in OBS
(41_guide_decode.md R133 to R138). Derived: parts of several rules; the request itself rests on D14, D15. -/
def Obligations.GuideWithoutDigitsRequestsTheDefault : Prop :=
  ∀ (c : Channel) (s : State), GuideReady [] s →
    exec (guideInstr c []) s =
      .next (requested c s.config.defaultGuideMs { s with obs := s.obs ++ [.defaultDuration] })

/-- With DIGITS_ONLY, a span that begins with digits requests their decimal value, saturated to DUR_MAX with
SATURATED_DURATION in OBS; what follows the digits is ignored (30_encoding.md R79). Derived: D10, D11. -/
def Obligations.DigitsOnlyNumeralRequestsItsValue : Prop :=
  ∀ (c : Channel) (s : State) (ds rest : List Byte), GuideReady (ds ++ rest) s →
    s.config.numeralMode = .digitsOnly → ds ≠ [] → (∀ b ∈ ds, Digit b) → (∀ b, rest.head? = some b → ¬ Digit b) →
    exec (guideInstr c (ds ++ rest)) s =
      .next (if s.config.durMax < decimalSum ds
        then requested c s.config.durMax { s with obs := s.obs ++ [.saturatedDuration] }
        else requested c (decimalSum ds) s)

/-- With DIGITS_ONLY, a span that begins with no digit requests 0 and leaves NONNUMERIC_DURATION in OBS (30_encoding.md
R79). Derived: D10 (a sign or a space is no digit). -/
def Obligations.DigitsOnlyNonnumericRequestsZero : Prop :=
  ∀ (c : Channel) (s : State) (b : Byte) (rest : List Byte), GuideReady (b :: rest) s →
    s.config.numeralMode = .digitsOnly → ¬ Digit b →
    exec (guideInstr c (b :: rest)) s = .next (requested c 0 { s with obs := s.obs ++ [.nonnumericDuration] })

/-- With C_STRTOL, a span of white space, an optional sign and digits requests the signed value where it lies in 0 to
DUR_MAX and is refused by name where it does not; one with no digit there requests 0 and leaves NONNUMERIC_DURATION in
OBS (30_encoding.md R79). Derived: D10, D11. -/
def Obligations.StrtolNumeralRequestsItsValueOrIsRefused : Prop :=
  ∀ (c : Channel) (s : State) (span ds : List Byte) (sign : Int), GuideReady span s →
    s.config.numeralMode = .cStrtol → span ≠ [] → StrtolSpan span sign ds →
    (ds = [] →
      exec (guideInstr c span) s = .next (requested c 0 { s with obs := s.obs ++ [.nonnumericDuration] })) ∧
    (ds ≠ [] → ∀ v : Nat, sign * (decimalSum ds : Int) = (v : Int) → v ≤ s.config.durMax →
      exec (guideInstr c span) s = .next (requested c v s)) ∧
    (ds ≠ [] → sign * (decimalSum ds : Int) < 0 ∨ (s.config.durMax : Int) < sign * (decimalSum ds : Int) →
      exec (guideInstr c span) s = .refused .numeralOutOfRange)

/-- A command GD does not turn into a request goes out on CMD_OUT with all its bytes unchanged (41_guide_decode.md
R132). -/
def Obligations.PassedCommandIsEmittedUnchanged : Prop :=
  ∀ (s : State) (body : List Byte), s.config.legal = true → (∀ b ∈ body, BodyByte b) →
    body.length + 2 ≤ s.config.maxCmdLen →
    (s.config.mode = .emulator ∨ ¬ Guide (0x3A :: (body ++ [0x23]))) →
    exec (.gdPass body) s = .next { s with out := s.out ++ [.cmd (0x3A :: (body ++ [0x23]))] }

/-- For every dispatched command exactly one holds: a guide command in FS2ADAPTER makes one request of at most DUR_MAX on
its channel and emits nothing, or one `CMD` is emitted, its bytes unchanged, and no request is made (41_guide_decode.md
R141, R138). Derived. -/
def Obligations.DispatchedCommandIsRequestedOrPassed : Prop :=
  ∀ (s t : State) (cmd : List Byte), perform (.command cmd) s = .next t →
    (s.config.mode = .fs2adapter ∧ Guide cmd ∧
      ∃ c d ev, GuideFor c cmd ∧ d ≤ s.config.durMax ∧ t = requested c d { s with obs := s.obs ++ ev }) ∨
    (¬ (s.config.mode = .fs2adapter ∧ Guide cmd) ∧ t = { s with out := s.out ++ [.cmd cmd] })

/-- In Emulator mode no byte changes the pulse engine (41_guide_decode.md R139). Derived: D9. -/
def Obligations.EmulatorBytesNeverChangePulses : Prop :=
  ∀ (s t : State) (bytes : List Byte), s.config.mode = .emulator → feed bytes s = .next t → t.pulses = s.pulses

/-! ### The pulse engine -/

/-- A REQ in variant B loads the duration, saturated to DUR_MAX, and activates the channel, also for 0 (42_pulse_engine.md
R161, R163). Derived: D11, D14. -/
def Obligations.CountdownRequestLoadsTheDuration : Prop :=
  ∀ (s : State) (c : Channel) (dur : BitVec 32), s.config.legal = true → s.config.timing = .countdown →
    exec (.pgRequest c dur) s = .next { s with
      pulses := s.pulses.set c ⟨true, min dur.toNat s.config.durMax⟩
      obs := if s.config.durMax < dur.toNat then s.obs ++ [.saturatedDuration] else s.obs }

/-- A REQ in variant A stores the deadline NOW + d mod 2^W and drives the line unless d is 0 (42_pulse_engine.md R161,
R162). Derived: D11, D15. -/
def Obligations.DeadlineRequestStoresTheDeadline : Prop :=
  ∀ (s : State) (c : Channel) (dur : BitVec 32), s.config.legal = true → s.config.timing = .deadline →
    exec (.pgRequest c dur) s = .next { s with
      pulses := s.pulses.set c ⟨decide (min dur.toNat s.config.durMax ≠ 0),
        (s.now + min dur.toNat s.config.durMax) % 2 ^ s.config.timeWidth⟩
      obs := if s.config.durMax < dur.toNat then s.obs ++ [.saturatedDuration] else s.obs }

/-- A service in variant A clears ACTIVE[c] exactly where the deadline is reached, that is where NOW - TIMER[c] mod 2^W
lies in the first half of the period, and changes nothing else (42_pulse_engine.md R165). Derived: D15. -/
def Obligations.DeadlineServiceReleasesReachedChannels : Prop :=
  ∀ s : State, s.config.legal = true → s.config.timing = .deadline →
    ∃ t, exec .pgService s = .next t ∧ t = { s with pulses := t.pulses } ∧
      ∀ c, (t.pulse c).timer = (s.pulse c).timer ∧
        ((t.pulse c).active = true ↔ (s.pulse c).active = true ∧
          ((2 ^ (s.config.timeWidth - 1) : Nat) : Int) ≤
            ((s.now : Int) - ((s.pulse c).timer : Int)) % ((2 ^ s.config.timeWidth : Nat) : Int))

/-- A service in variant B takes TICK_MS off each active channel without wrap, clears ACTIVE[c] exactly where the result
is 0 or below, and changes nothing else; idle channels keep their counter (42_pulse_engine.md R166, R172). Derived:
D13; the range of R172 is a premise, kept by CountdownRangeIsKept. -/
def Obligations.CountdownServiceCountsActiveChannels : Prop :=
  ∀ s : State, s.config.legal = true → s.config.timing = .countdown → CountdownInv s →
    ∃ t, exec .pgService s = .next t ∧ t = { s with pulses := t.pulses } ∧
      ∀ c, ((s.pulse c).active = true →
          signed s.config.timerWidth (t.pulse c).timer =
            signed s.config.timerWidth (s.pulse c).timer - (s.config.tickMs : Int) ∧
          ((t.pulse c).active = true ↔ 0 < signed s.config.timerWidth (t.pulse c).timer)) ∧
        ((s.pulse c).active = false → t.pulse c = s.pulse c)

/-- The order in which a service takes the channels does not change its result (42_pulse_engine.md R164). Derived: the
rule gives it as a consequence of the channels' independence. -/
def Obligations.ServiceOrderDoesNotMatter : Prop :=
  ∀ (order : List Channel) (s : State), order.Perm [.north, .south, .east, .west] → s.config.legal = true →
    exec .pgService s = .next (service order s)

/-- A request replaces the one before it on its channel: the last write wins and nothing is queued (20_memory.md R60). -/
def Obligations.LastRequestWins : Prop :=
  ∀ (s s1 s2 t : State) (c : Channel) (d1 d2 : BitVec 32),
    exec (.pgRequest c d1) s = .next s1 → exec (.pgRequest c d2) s1 = .next s2 → exec (.pgRequest c d2) s = .next t →
    s2.pulses = t.pulses ∧ s2 = { t with obs := s2.obs }

/-- The timing law of variant B: after a request of d the channel stays active for k - 1 services and is idle after
service k, k = max(1, ceil(d / TICK_MS)), with TIMER = d - j TICK_MS after service j up to k, and stays idle
(42_pulse_engine.md R171, R176). Derived: D13. -/
def Obligations.CountdownPulseLastsKServices : Prop :=
  ∀ (s s0 : State) (c : Channel) (dur : BitVec 32), s.config.timing = .countdown →
    exec (.pgRequest c dur) s = .next s0 →
    ∀ j, ∃ t, services j s0 = .next t ∧
      let d := min dur.toNat s.config.durMax
      let k := max 1 ((d + s.config.tickMs - 1) / s.config.tickMs)
      ((t.pulse c).active = true ↔ j < k) ∧
      signed s.config.timerWidth (t.pulse c).timer = (d : Int) - (min j k : Nat) * (s.config.tickMs : Int)

/-- The timing law of variant A: after a request of d ≥ 1 at NOW = t0, services at elapsed times below d leave the channel
active, and the first service at an elapsed time from d to d + 2^(W-1) - 1 ends the pulse (42_pulse_engine.md R170).
Derived: D15. -/
def Obligations.DeadlinePulseEndsAtTheFirstServiceFromTheDeadline : Prop :=
  ∀ (s s0 : State) (c : Channel) (dur : BitVec 32) (early : List Nat) (e : Nat), s.config.timing = .deadline →
    exec (.pgRequest c dur) s = .next s0 →
    let d := min dur.toNat s.config.durMax
    let W := s.config.timeWidth
    (∀ x ∈ early, x < d) →
    ∃ t, performAll (early.flatMap (serviceAt W s.now)) s0 = .next t ∧
      ((t.pulse c).active = true ↔ 1 ≤ d) ∧
      (d ≤ e → e ≤ d + 2 ^ (W - 1) - 1 →
        ∃ u, performAll (serviceAt W s.now e) t = .next u ∧ (u.pulse c).active = false)

/-- The wraparound hazard of variant A: a service 2^(W-1) ms or more, and less than 2^W ms, after the deadline does not
end the pulse (70_reset_and_hazards.md R237). Derived. -/
def Obligations.LateDeadlineServiceMissesTheDeadline : Prop :=
  ∀ (s s0 : State) (c : Channel) (dur : BitVec 32) (e : Nat), s.config.timing = .deadline →
    exec (.pgRequest c dur) s = .next s0 →
    let d := min dur.toNat s.config.durMax
    let W := s.config.timeWidth
    1 ≤ d → d + 2 ^ (W - 1) ≤ e → e < d + 2 ^ W →
    ∃ u, performAll (serviceAt W s.now e) s0 = .next u ∧ (u.pulse c).active = true

/-- No operation ends a pulse early but a new request on the same channel and reset, and a request ends one only in
variant A (42_pulse_engine.md R169). Derived: that reset ends one is D23. -/
def Obligations.PulseEndsEarlyOnlyByRequestOrReset : Prop :=
  ∀ (i : Instr) (s t : State) (c : Channel), exec i s = .next t → (s.pulse c).active = true →
    (t.pulse c).active = false → i ≠ .pgService →
    i = .reset ∨ s.config.timing = .deadline ∧
      ((∃ dur, i = .pgRequest c dur) ∨ (∃ digits, i = guideInstr c digits) ∨
        (i = .frEnd ∧ s.config.mode = .fs2adapter ∧ GuideFor c (s.buf ++ [0x23])))

/-- A channel that is idle stays idle, counter and all, until the next request on it or reset (42_pulse_engine.md R176).
Derived. -/
def Obligations.IdleChannelChangesOnlyByRequestOrReset : Prop :=
  ∀ (i : Instr) (s t : State) (c : Channel), exec i s = .next t → (s.pulse c).active = false →
    t.pulse c ≠ s.pulse c →
    i = .reset ∨ (∃ dur, i = .pgRequest c dur) ∨ (∃ digits, i = guideInstr c digits) ∨
      (i = .frEnd ∧ s.config.mode = .fs2adapter ∧ GuideFor c (s.buf ++ [0x23]))

/-- Channel c after any sequence of transactions does not depend on requests on other channels: with those taken out, as
REQ or as a guide command, and from any state that agrees on c, the sequence still completes with the same channel c
(42_pulse_engine.md R177). Derived; that a COMMAND can be a transaction of its own is the model's (log entry 5). -/
def Obligations.RequestsOnOtherChannelsDoNotTouchAChannel : Prop :=
  ∀ (c : Channel) (ts : List Transaction) (s s' t : State), SameFor c s s' → performAll ts s = .next t →
    ∃ t', performAll (ts.filter (concerns s.config.mode c)) s' = .next t' ∧ SameFor c t t'

/-- PG does not read MODE: a request or a service acts the same in both modes (42_pulse_engine.md R175). Derived: D27. -/
def Obligations.PulseEngineIgnoresMode : Prop :=
  ∀ (i : Instr) (s t : State) (m : Mode), (i = .pgService ∨ ∃ c dur, i = .pgRequest c dur) → exec i s = .next t →
    exec i { s with config := { s.config with mode := m } } = .next { t with config := { t.config with mode := m } }

/-- After every transaction each ST4 line is low exactly while its flag is set and high-impedance otherwise (10_state.md
R31, R32). Derived: D19. -/
def Obligations.LinesMirrorTheFlags : Prop :=
  ∀ (s : State) (c : Channel),
    (s.st4 c = .drivenLow ↔ (s.pulse c).active = true) ∧ (s.st4 c = .hiZ ↔ (s.pulse c).active = false)

/-! ### Reset, time and configuration -/

/-- RESET sets every piece of state to its reset value and leaves NOW, MODE and the parameters; every line is released
(70_reset_and_hazards.md R230). Derived: D23; the schedule and the count of draws are the model's (log entries 4, 6). -/
def Obligations.ResetRestoresEveryResetValue : Prop :=
  ∀ s : State, s.config.legal = true →
    ∃ t, exec .reset s = .next t ∧ t.fstate = .idle ∧ t.len = 0 ∧
      (∀ c, t.pulse c = ⟨false, 0⟩ ∧ t.st4 c = .hiZ) ∧ t.out = [] ∧ t.obs = [] ∧
      t.now = s.now ∧ t.config = s.config ∧ t.pending = s.pending ∧ t.draws = s.draws

/-- The state right after reset has the values of 10_state.md R38 and is safe; with any legal configuration, time of its
width and schedule too. Derived: D23; MODE and NOW of `State.reset` are the model's (log entries 2, 3) and not stated. -/
def Obligations.ResetStateHasTheResetValuesAndIsSafe : Prop :=
  (State.reset.fstate = .idle ∧ State.reset.len = 0 ∧ (∀ c, State.reset.pulse c = ⟨false, 0⟩) ∧
    (∀ c, State.reset.st4 c = .hiZ) ∧ State.reset.out = [] ∧ State.reset.obs = []) ∧
  Safe State.reset ∧
  ∀ (cfg : Config) (now : Nat) (pending : List Arrival), cfg.legal = true → now < 2 ^ cfg.timeWidth →
    Safe (State.resetFor cfg now pending)

/-- A NOW change sets the time input and changes nothing else (42_pulse_engine.md R173). Derived: D16. -/
def Obligations.NowChangeSetsOnlyTheTime : Prop :=
  ∀ (s : State) (v : Nat), s.config.legal = true → v < 2 ^ s.config.timeWidth →
    exec (.envNow v) s = .next { s with now := v }

/-- Only a NOW change changes the time input; reset does not (10_state.md R33). Derived: D16. -/
def Obligations.OnlyNowChangesChangeTheTime : Prop :=
  ∀ (i : Instr) (s t : State), exec i s = .next t → t.now ≠ s.now → i = .envNow t.now

/-- No step changes MODE or a parameter (00_scope.md R6, 10_state.md R25). Derived: that the configuration is a field of
the state is the model's (log entry 1). -/
def Obligations.ConfigurationNeverChanges : Prop :=
  (∀ (i : Instr) (s t : State), exec i s = .next t → t.config = s.config) ∧
  ∀ s t : State, step s = .next t → t.config = s.config

/-- OUT and OBS are only ever extended, but by reset (10_state.md R36, R37). Derived: D21, D26. -/
def Obligations.TracesOnlyGrowExceptAtReset : Prop :=
  ∀ (i : Instr) (s t : State), exec i s = .next t → i ≠ .reset → s.out <+: t.out ∧ s.obs <+: t.obs

/-! ### Invariants -/

/-- Every step keeps the framer invariant (10_state.md R24). Derived. -/
def Obligations.FramerInvariantIsKept : Prop :=
  ∀ s t : State, FramerInv s → step s = .next t → FramerInv t

/-- Every step keeps the registers within their widths (10_state.md R30, R33). Derived: D16, D28. -/
def Obligations.RegisterWidthsAreKept : Prop :=
  ∀ s t : State, RegistersFit s → step s = .next t → RegistersFit t

/-- Every step keeps the counter range of variant B (42_pulse_engine.md R172). Derived. -/
def Obligations.CountdownRangeIsKept : Prop :=
  ∀ s t : State, CountdownInv s → step s = .next t → CountdownInv t

/-! ### Byte streams -/

/-- Framing does not depend on how the stream is chunked, nor on SERVICE, REQ and NOW transactions between the chunks:
the whole stream alone leaves the same FSTATE and BUF and puts the same on OUT, and it completes exactly where the
chunks do, if the configuration is legal and the NOW values fit (40_framer.md R108, R109, 10_state.md R35). Derived:
D34. -/
def Obligations.FeedingIsChunkIndependent : Prop :=
  ∀ (chunks : List (List Byte × List Transaction)) (s : State),
    (∀ p ∈ chunks, ∀ x ∈ p.2, besideTheStream x = true) →
    (∀ t, performAll (chunked chunks) s = .next t →
      ∃ u, feed (chunks.flatMap (·.1)) s = .next u ∧ SameFraming t u) ∧
    (s.config.legal = true → (∀ p ∈ chunks, ∀ v, Transaction.now v ∈ p.2 → v < 2 ^ s.config.timeWidth) →
      ∀ u, feed (chunks.flatMap (·.1)) s = .next u →
        ∃ t, performAll (chunked chunks) s = .next t ∧ SameFraming t u)

/-- Feeding a whole command from Idle, byte by byte, is performing that command's operation once: nothing is lost, added
or left behind (30_encoding.md R73, R74, 40_framer.md R105). Derived: D4, D6. -/
def Obligations.FramedCommandRunsAsOneOperation : Prop :=
  ∀ (s : State) (body : List Byte), s.config.legal = true → s.fstate = .idle → s.buf = [] →
    (∀ b ∈ body, BodyByte b) → body.length + 2 ≤ s.config.maxCmdLen →
    ∃ i, decode s.context (.command (0x3A :: (body ++ [0x23]))) = .ok i ∧
      feed (0x3A :: (body ++ [0x23])) s = exec i s

/-- A command of more than MAX_CMD_LEN bytes is dropped whole: one OVERFLOW_DROP, nothing on OUT, and the bytes after the
overflow, which hold no `':'`, are discarded (40_framer.md R104, R110). Derived: D6, D7. -/
def Obligations.OverlongCommandIsDroppedWhole : Prop :=
  ∀ (s : State) (body : List Byte), s.config.legal = true → s.fstate = .idle → s.buf = [] →
    (∀ b ∈ body, BodyByte b) → s.config.maxCmdLen < body.length + 2 →
    (∀ b ∈ body.drop s.config.maxCmdLen, b ≠ 0x3A) →
    feed (0x3A :: (body ++ [0x23])) s = .next { s with obs := s.obs ++ [.overflowDrop] }

/-- After an overflow the bytes up to the next `':'` leave nothing but the replies to the probes among them: no byte of
the dropped command leaks (40_framer.md R110). Derived: D7. -/
def Obligations.NothingLeaksAfterAnOverflow : Prop :=
  ∀ (s : State) (b : Byte) (bytes : List Byte), s.config.legal = true → s.fstate = .collecting →
    s.len = s.config.maxCmdLen → b ≠ 0x06 → (∀ x ∈ bytes, x ≠ 0x3A) →
    feed (b :: bytes) s = .next { s with
      fstate := .idle
      buf := []
      obs := s.obs ++ [.overflowDrop]
      out := s.out ++ List.replicate (bytes.count 0x06) (.reply [0x47]) }

/-- Taking the probes out of a byte stream leaves CMD_OUT, OBS, PG and the framer's final state unchanged, and takes out
exactly one reply for each (40_framer.md R112). Derived: D5. -/
def Obligations.AckProbesAreTransparent : Prop :=
  ∀ (bytes : List Byte) (s t : State), feed bytes s = .next t →
    ∃ u, feed (bytes.filter (fun b => decide (b ≠ 0x06))) s = .next u ∧ t = { u with out := t.out } ∧
      commandsOf t.out = commandsOf u.out ∧
      t.out.count (.reply [0x47]) = u.out.count (.reply [0x47]) + bytes.count 0x06
end

