-- ==== Sys2Proof/Laws/Arith.lean ====
section
/-! SUPPORT. The laws of `wrap_N` and `signed_N` (00_scope.md R8). -/

namespace Sys2Proof.Machine

theorem wrap_lt (n : Nat) (v : Int) : wrap n v < 2 ^ n := by
  have hpos : (0 : Int) < ((2 ^ n : Nat) : Int) := by positivity
  have h := Int.emod_lt_of_pos v hpos
  have h0 := Int.emod_nonneg v hpos.ne'
  unfold wrap
  omega

theorem wrap_natCast (n v : Nat) : wrap n (v : Int) = v % 2 ^ n := by
  unfold wrap
  rw [← Int.natCast_emod, Int.toNat_natCast]

theorem two_pow_pred {n : Nat} (hn : 1 ≤ n) : 2 ^ n = 2 * 2 ^ (n - 1) := by
  obtain ⟨m, rfl⟩ : ∃ m, n = m + 1 := ⟨n - 1, by omega⟩
  rw [Nat.add_sub_cancel, pow_succ, Nat.mul_comm]

/-- A value in the signed range reads back from its pattern. -/
theorem signed_wrap {n : Nat} (hn : 1 ≤ n) {v : Int} (hlo : -((2 ^ (n - 1) : Nat) : Int) ≤ v)
    (hhi : v < ((2 ^ (n - 1) : Nat) : Int)) : signed n (wrap n v) = v := by
  have h2 := two_pow_pred hn
  unfold signed wrap
  rw [h2]
  generalize 2 ^ (n - 1) = m at *
  push_cast
  rcases le_or_gt 0 v with hv | hv
  · rw [Int.emod_eq_of_lt hv (by omega)]
    rw [if_pos (by omega)]
    omega
  · have : v % (2 * (m : Int)) = v + 2 * m := by
      rw [← Int.add_emod_right, Int.emod_eq_of_lt (by omega) (by omega)]
    rw [this, if_neg (by omega)]
    omega

/-- A pattern below the sign bit reads as itself. -/
theorem signed_of_lt {n u : Nat} (h : u < 2 ^ (n - 1)) : signed n u = u := if_pos h

/-- The signed reading is not negative exactly below the sign bit. -/
theorem signed_nonneg_iff {n u : Nat} (hn : 1 ≤ n) (hu : u < 2 ^ n) : 0 ≤ signed n u ↔ u < 2 ^ (n - 1) := by
  have h2 := two_pow_pred hn
  unfold signed
  split <;> omega

/-- The signed reading of a wrapped value is not negative exactly when the value lies in the first half of its period. -/
theorem signed_wrap_nonneg_iff {n : Nat} (hn : 1 ≤ n) (v : Int) :
    0 ≤ signed n (wrap n v) ↔ v % ((2 ^ n : Nat) : Int) < ((2 ^ (n - 1) : Nat) : Int) := by
  rw [signed_nonneg_iff hn (wrap_lt n v)]
  have hpos : (0 : Int) < ((2 ^ n : Nat) : Int) := by positivity
  have h0 := Int.emod_nonneg v hpos.ne'
  unfold wrap
  omega

end Sys2Proof.Machine
end

