-- ==== Sys2Proof/Laws/Config.lean ====
section
/-! SUPPORT. What a legal configuration says (00_scope.md R6, R7), field by field. -/

namespace Sys2Proof.Config

theorem legal_iff (c : Config) :
    c.legal = true ↔ 5 ≤ c.maxCmdLen ∧ c.defaultGuideMs ≤ c.durMax ∧ 1 ≤ c.tickMs ∧ 2 ≤ c.timeWidth ∧
      2 ≤ c.timerWidth ∧ c.timingLegal = true := by
  simp only [legal, Bool.and_eq_true, decide_eq_true_eq, and_assoc]

variable {c : Config}

theorem five_le_maxCmdLen (h : c.legal = true) : 5 ≤ c.maxCmdLen := (c.legal_iff.mp h).1
theorem defaultGuideMs_le (h : c.legal = true) : c.defaultGuideMs ≤ c.durMax := (c.legal_iff.mp h).2.1
theorem one_le_tickMs (h : c.legal = true) : 1 ≤ c.tickMs := (c.legal_iff.mp h).2.2.1
theorem two_le_timeWidth (h : c.legal = true) : 2 ≤ c.timeWidth := (c.legal_iff.mp h).2.2.2.1
theorem two_le_timerWidth (h : c.legal = true) : 2 ≤ c.timerWidth := (c.legal_iff.mp h).2.2.2.2.1

theorem deadline_bounds (h : c.legal = true) (ht : c.timing = .deadline) :
    c.timerWidth = c.timeWidth ∧ c.durMax < 2 ^ (c.timeWidth - 1) := by
  have := (c.legal_iff.mp h).2.2.2.2.2
  simp only [timingLegal, ht, Bool.and_eq_true, beq_iff_eq, decide_eq_true_eq] at this
  have hpos : 0 < 2 ^ (c.timeWidth - 1) := by positivity
  omega

theorem countdown_bounds (h : c.legal = true) (ht : c.timing = .countdown) :
    c.durMax < 2 ^ (c.timerWidth - 1) ∧ c.tickMs ≤ 2 ^ (c.timerWidth - 1) := by
  have := (c.legal_iff.mp h).2.2.2.2.2
  simp only [timingLegal, ht, Bool.and_eq_true, decide_eq_true_eq] at this
  have hpos : 0 < 2 ^ (c.timerWidth - 1) := by positivity
  omega

/-- MODE has no part in what R7 asks. -/
theorem legal_withMode (c : Config) (m : Mode) : ({ c with mode := m } : Config).legal = c.legal := rfl

end Sys2Proof.Config
end

