-- ==== Sys2Proof/Laws/Decode.lean ====
section
/-! SUPPORT. The small laws of the command formats and of the channel codes, from which the round trips follow. -/

namespace Sys2Proof

@[simp] theorem Channel.ofCode_code (c : Channel) : Channel.ofCode c.code = c := by cases c <;> rfl

theorem Channel.code_ofCode (d : BitVec 2) : (Channel.ofCode d).code = d := by
  revert d; decide

@[simp] theorem Channel.ofLetter_letter (c : Channel) : Channel.ofLetter c.letter = some c := by cases c <;> rfl

theorem Channel.letter_of_ofLetter {b : Byte} {c : Channel} (h : Channel.ofLetter b = some c) : c.letter = b := by
  unfold Channel.ofLetter at h
  split at h
  · next hb => cases h; exact hb.symm
  split at h
  · next hb => cases h; exact hb.symm
  split at h
  · next hb => cases h; exact hb.symm
  split at h
  · next hb => cases h; exact hb.symm
  · cases h

@[simp] theorem bodyOf_commandOf (body : List Byte) : bodyOf (commandOf body) = body := by
  simp [bodyOf, commandOf]

@[simp] theorem commandOf_length (body : List Byte) : (commandOf body).length = body.length + 2 := by
  simp [commandOf]

@[simp] theorem digitSpan_guideCommand (c : Channel) (digits : List Byte) : digitSpan (guideCommand c digits) = digits := by
  simp [digitSpan, guideCommand, commandOf]

@[simp] theorem guideCommand_length (c : Channel) (digits : List Byte) :
    (guideCommand c digits).length = digits.length + 5 := by
  simp [guideCommand, commandOf]

@[simp] theorem guideChannel_guideCommand (c : Channel) (digits : List Byte) :
    guideChannel (guideCommand c digits) = some c := by
  cases digits <;> simp [guideCommand, commandOf, guideChannel]

@[simp] theorem isBody_upperM : Ascii.isBody Ascii.upperM = true := rfl
@[simp] theorem isBody_lowerG : Ascii.isBody Ascii.lowerG = true := rfl
@[simp] theorem isBody_letter (c : Channel) : Ascii.isBody c.letter = true := by cases c <;> rfl

theorem isBody_iff {b : Byte} : Ascii.isBody b = true ↔ b ≠ Ascii.ack ∧ b ≠ Ascii.hash := by
  simp [Ascii.isBody]

/-- A command is of the format of R73 exactly when it is the command of a body that fits (30_encoding.md R73). -/
theorem isCommand_iff {cfg : Config} {cmd : List Byte} :
    isCommand cfg cmd = true ↔
      ∃ body, cmd = commandOf body ∧ body.all Ascii.isBody = true ∧ body.length + 2 ≤ cfg.maxCmdLen := by
  constructor
  · intro h
    simp only [isCommand, Bool.and_eq_true, beq_iff_eq, decide_eq_true_eq] at h
    obtain ⟨⟨hc, hb⟩, hl⟩ := h
    refine ⟨bodyOf cmd, hc, hb, ?_⟩
    rw [hc, commandOf_length] at hl
    exact hl
  · rintro ⟨body, rfl, hb, hl⟩
    simp only [isCommand, bodyOf_commandOf, commandOf_length, beq_self_eq_true, Bool.true_and, Bool.and_eq_true,
      decide_eq_true_eq]
    exact ⟨hb, hl⟩

/-- A command that names a channel is that channel's guide command (30_encoding.md R76). -/
theorem commandOf_eq_guideCommand {body : List Byte} {c : Channel} (h : guideChannel (commandOf body) = some c) :
    ∃ digits, body = Ascii.upperM :: Ascii.lowerG :: c.letter :: digits := by
  match body, h with
  | [], h => simp [commandOf, guideChannel] at h
  | [_], h => simp [commandOf, guideChannel] at h
  | [_, _], h => simp [commandOf, guideChannel] at h
  | m :: g :: l :: digits, h =>
    have hcmd : ∃ x r, digits ++ [Ascii.hash] = x :: r := by
      cases digits with
      | nil => exact ⟨_, _, rfl⟩
      | cons x r => exact ⟨x, r ++ [Ascii.hash], rfl⟩
    obtain ⟨x, r, hx⟩ := hcmd
    simp only [commandOf, List.cons_append, hx, guideChannel] at h
    split at h
    · next hp =>
      obtain ⟨-, rfl, rfl⟩ := hp
      exact ⟨digits, by rw [Channel.letter_of_ofLetter h]⟩
    · cases h

/-- The guide predicate, byte by byte (41_guide_decode.md R131). -/
theorem guideChannel_eq_some_iff {cmd : List Byte} {c : Channel} :
    guideChannel cmd = some c ↔
      5 ≤ cmd.length ∧ cmd[0]? = some Ascii.colon ∧ cmd[1]? = some Ascii.upperM ∧ cmd[2]? = some Ascii.lowerG ∧
        cmd[3]? = some c.letter := by
  match cmd with
  | [] => simp [guideChannel]
  | [_] => simp [guideChannel]
  | [_, _] => simp [guideChannel]
  | [_, _, _] => simp [guideChannel]
  | [_, _, _, _] => simp [guideChannel]
  | c0 :: c1 :: c2 :: c3 :: c4 :: rest =>
    simp only [guideChannel, List.length_cons, List.getElem?_cons_zero, List.getElem?_cons_succ, Option.some.injEq]
    constructor
    · intro h
      split at h
      · next hp => exact ⟨by omega, hp.1, hp.2.1, hp.2.2, (Channel.letter_of_ofLetter h).symm⟩
      · cases h
    · rintro ⟨-, rfl, rfl, rfl, rfl⟩
      simp

theorem isCommand_commandOf {cfg : Config} {body : List Byte} (hb : body.all Ascii.isBody = true)
    (hl : body.length + 2 ≤ cfg.maxCmdLen) : isCommand cfg (commandOf body) = true :=
  isCommand_iff.mpr ⟨body, rfl, hb, hl⟩

theorem isCommand_guideCommand {cfg : Config} (c : Channel) {digits : List Byte}
    (hb : digits.all Ascii.isBody = true) (hl : digits.length + 5 ≤ cfg.maxCmdLen) :
    isCommand cfg (guideCommand c digits) = true :=
  isCommand_commandOf (by simpa using hb) (by simpa using hl)

/-- Everything a COMMAND can decode to: a guide instruction, or a pass (41_guide_decode.md R130). -/
theorem decode_command_cases {k : Context} {cmd : List Byte} {i : Instr} (h : decode k (.command cmd) = .ok i) :
    (∃ c digits, k.config.mode = .fs2adapter ∧ cmd = guideCommand c digits ∧ i = guideInstr c digits ∧
      digits.all Ascii.isBody = true ∧ digits.length + 5 ≤ k.config.maxCmdLen) ∨
    (∃ body, (k.config.mode = .emulator ∨ guideChannel cmd = none) ∧ cmd = commandOf body ∧ i = .gdPass body ∧
      body.all Ascii.isBody = true ∧ body.length + 2 ≤ k.config.maxCmdLen) := by
  simp only [decode] at h
  split at h
  · next hc =>
    obtain ⟨body, rfl, hb, hl⟩ := isCommand_iff.mp hc
    cases h
    unfold classify
    split
    · next hm => exact .inr ⟨body, .inl hm, rfl, by simp, hb, hl⟩
    · next hm =>
      split
      · next c hg =>
        obtain ⟨digits, rfl⟩ := commandOf_eq_guideCommand hg
        exact .inl ⟨c, digits, hm, rfl, congrArg _ (digitSpan_guideCommand c digits), by simpa using hb,
          by simpa using hl⟩
      · next hg => exact .inr ⟨body, .inr hg, rfl, by simp, hb, hl⟩
  · cases h

end Sys2Proof
end

