-- ==== Sys2Proof/Laws/Flags.lean ====
section
/-! SUPPORT. The laws of the per-channel rules of a request and a service (42_pulse_engine.md R162 to R166). -/

namespace Sys2Proof.Machine

/-- A service leaves an idle channel as it is, in both variants (42_pulse_engine.md R176). -/
theorem servicePulse_idle (cfg : Config) (now : Nat) {p : Pulse} (h : p.active = false) : servicePulse cfg now p = p := by
  unfold servicePulse serviceDeadline serviceCountdown
  cases cfg.timing <;> simp [h]

/-- A request in variant B activates its channel, whatever the duration (42_pulse_engine.md R163). -/
theorem requestPulse_countdown {cfg : Config} (ht : cfg.timing = .countdown) (now d : Nat) :
    requestPulse cfg now d = ⟨true, d⟩ := by
  simp [requestPulse, ht, requestCountdown]

/-- A request in variant A stores the deadline and activates its channel unless d is 0 (42_pulse_engine.md R162). -/
theorem requestPulse_deadline {cfg : Config} (ht : cfg.timing = .deadline) (now d : Nat) :
    requestPulse cfg now d = ⟨decide (d ≠ 0), (now + d) % 2 ^ cfg.timeWidth⟩ := by
  simp only [requestPulse, ht, requestDeadline, ← wrap_natCast]
  push_cast
  rfl

/-- The signed test of variant A is the first half of the period of NOW - TIMER (42_pulse_engine.md R165). -/
theorem deadlineReached_iff {cfg : Config} (hl : cfg.legal = true) (now timer : Nat) :
    deadlineReached cfg now timer = true ↔
      ((now : Int) - (timer : Int)) % ((2 ^ cfg.timeWidth : Nat) : Int) < ((2 ^ (cfg.timeWidth - 1) : Nat) : Int) := by
  have hw := Config.two_le_timeWidth hl
  rw [deadlineReached, decide_eq_true_eq, signed_wrap_nonneg_iff (by omega)]

theorem servicePulse_deadline_timer {cfg : Config} (ht : cfg.timing = .deadline) (now : Nat) (p : Pulse) :
    (servicePulse cfg now p).timer = p.timer := by
  simp only [servicePulse, ht, serviceDeadline]
  split <;> rfl

theorem servicePulse_deadline_active {cfg : Config} (ht : cfg.timing = .deadline) (now : Nat) (p : Pulse) :
    (servicePulse cfg now p).active = (p.active && !deadlineReached cfg now p.timer) := by
  simp only [servicePulse, ht, serviceDeadline]
  cases hp : p.active <;> cases deadlineReached cfg now p.timer <;> simp [hp]

theorem servicePulse_countdown_active {cfg : Config} (ht : cfg.timing = .countdown) (now : Nat) {p : Pulse}
    (hp : p.active = true) :
    servicePulse cfg now p = ⟨!countExpired cfg (countDown cfg p.timer), countDown cfg p.timer⟩ := by
  simp [servicePulse, ht, serviceCountdown, hp]

/-- The decrement of an active channel does not wrap (42_pulse_engine.md R172). -/
theorem signed_countDown {cfg : Config} (hl : cfg.legal = true) (ht : cfg.timing = .countdown) {u : Nat}
    (h0 : 0 ≤ signed cfg.timerWidth u) (h1 : signed cfg.timerWidth u ≤ cfg.durMax) :
    signed cfg.timerWidth (countDown cfg u) = signed cfg.timerWidth u - (cfg.tickMs : Int) := by
  obtain ⟨hd, hk⟩ := Config.countdown_bounds hl ht
  have hw := Config.two_le_timerWidth hl
  exact signed_wrap (by omega) (by omega) (by omega)

/-- The counter a request loads reads back as the duration (00_scope.md R7). -/
theorem signed_duration {cfg : Config} (hl : cfg.legal = true) (ht : cfg.timing = .countdown) {d : Nat}
    (hd : d ≤ cfg.durMax) : signed cfg.timerWidth d = d :=
  signed_of_lt (by have := (Config.countdown_bounds hl ht).1; omega)

end Sys2Proof.Machine
end

