-- ==== Sys2Proof/Laws/State.lean ====
section
/-! SUPPORT. What each shared operation does to each field of the state, and the laws of the channel array. -/

namespace Sys2Proof.Machine

/-! ### append -/

@[simp] theorem append_config (b : Byte) (s : State) : (append b s).config = s.config := rfl
@[simp] theorem append_fstate (b : Byte) (s : State) : (append b s).fstate = s.fstate := rfl
@[simp] theorem append_buf (b : Byte) (s : State) : (append b s).buf = s.buf ++ [b] := rfl
@[simp] theorem append_pulses (b : Byte) (s : State) : (append b s).pulses = s.pulses := rfl
@[simp] theorem append_now (b : Byte) (s : State) : (append b s).now = s.now := rfl
@[simp] theorem append_out (b : Byte) (s : State) : (append b s).out = s.out := rfl
@[simp] theorem append_obs (b : Byte) (s : State) : (append b s).obs = s.obs := rfl
@[simp] theorem append_pending (b : Byte) (s : State) : (append b s).pending = s.pending := rfl
@[simp] theorem append_draws (b : Byte) (s : State) : (append b s).draws = s.draws := rfl

/-! ### clearFramer -/

@[simp] theorem clearFramer_config (s : State) : (clearFramer s).config = s.config := rfl
@[simp] theorem clearFramer_fstate (s : State) : (clearFramer s).fstate = FState.idle := rfl
@[simp] theorem clearFramer_buf (s : State) : (clearFramer s).buf = [] := rfl
@[simp] theorem clearFramer_pulses (s : State) : (clearFramer s).pulses = s.pulses := rfl
@[simp] theorem clearFramer_now (s : State) : (clearFramer s).now = s.now := rfl
@[simp] theorem clearFramer_out (s : State) : (clearFramer s).out = s.out := rfl
@[simp] theorem clearFramer_obs (s : State) : (clearFramer s).obs = s.obs := rfl
@[simp] theorem clearFramer_pending (s : State) : (clearFramer s).pending = s.pending := rfl
@[simp] theorem clearFramer_draws (s : State) : (clearFramer s).draws = s.draws := rfl

/-! ### emit -/

@[simp] theorem emit_config (e : OutEvent) (s : State) : (emit e s).config = s.config := rfl
@[simp] theorem emit_fstate (e : OutEvent) (s : State) : (emit e s).fstate = s.fstate := rfl
@[simp] theorem emit_buf (e : OutEvent) (s : State) : (emit e s).buf = s.buf := rfl
@[simp] theorem emit_pulses (e : OutEvent) (s : State) : (emit e s).pulses = s.pulses := rfl
@[simp] theorem emit_now (e : OutEvent) (s : State) : (emit e s).now = s.now := rfl
@[simp] theorem emit_out (e : OutEvent) (s : State) : (emit e s).out = s.out ++ [e] := rfl
@[simp] theorem emit_obs (e : OutEvent) (s : State) : (emit e s).obs = s.obs := rfl
@[simp] theorem emit_pending (e : OutEvent) (s : State) : (emit e s).pending = s.pending := rfl
@[simp] theorem emit_draws (e : OutEvent) (s : State) : (emit e s).draws = s.draws := rfl

/-! ### observe -/

@[simp] theorem observe_config (e : Option ObsEvent) (s : State) : (observe e s).config = s.config := rfl
@[simp] theorem observe_fstate (e : Option ObsEvent) (s : State) : (observe e s).fstate = s.fstate := rfl
@[simp] theorem observe_buf (e : Option ObsEvent) (s : State) : (observe e s).buf = s.buf := rfl
@[simp] theorem observe_pulses (e : Option ObsEvent) (s : State) : (observe e s).pulses = s.pulses := rfl
@[simp] theorem observe_now (e : Option ObsEvent) (s : State) : (observe e s).now = s.now := rfl
@[simp] theorem observe_out (e : Option ObsEvent) (s : State) : (observe e s).out = s.out := rfl
@[simp] theorem observe_obs (e : Option ObsEvent) (s : State) : (observe e s).obs = s.obs ++ e.toList := rfl
@[simp] theorem observe_pending (e : Option ObsEvent) (s : State) : (observe e s).pending = s.pending := rfl
@[simp] theorem observe_draws (e : Option ObsEvent) (s : State) : (observe e s).draws = s.draws := rfl

/-! ### ackEvent -/

@[simp] theorem ackEvent_config (s : State) : (ackEvent s).config = s.config := rfl
@[simp] theorem ackEvent_fstate (s : State) : (ackEvent s).fstate = s.fstate := rfl
@[simp] theorem ackEvent_buf (s : State) : (ackEvent s).buf = s.buf := rfl
@[simp] theorem ackEvent_pulses (s : State) : (ackEvent s).pulses = s.pulses := rfl
@[simp] theorem ackEvent_now (s : State) : (ackEvent s).now = s.now := rfl
@[simp] theorem ackEvent_out (s : State) : (ackEvent s).out = s.out ++ [OutEvent.reply [Ascii.upperG]] := rfl
@[simp] theorem ackEvent_obs (s : State) : (ackEvent s).obs = s.obs := rfl
@[simp] theorem ackEvent_pending (s : State) : (ackEvent s).pending = s.pending := rfl
@[simp] theorem ackEvent_draws (s : State) : (ackEvent s).draws = s.draws := rfl

/-! ### pass -/

@[simp] theorem pass_config (cmd : List Byte) (s : State) : (pass cmd s).config = s.config := rfl
@[simp] theorem pass_fstate (cmd : List Byte) (s : State) : (pass cmd s).fstate = s.fstate := rfl
@[simp] theorem pass_buf (cmd : List Byte) (s : State) : (pass cmd s).buf = s.buf := rfl
@[simp] theorem pass_pulses (cmd : List Byte) (s : State) : (pass cmd s).pulses = s.pulses := rfl
@[simp] theorem pass_now (cmd : List Byte) (s : State) : (pass cmd s).now = s.now := rfl
@[simp] theorem pass_out (cmd : List Byte) (s : State) : (pass cmd s).out = s.out ++ [OutEvent.cmd cmd] := rfl
@[simp] theorem pass_obs (cmd : List Byte) (s : State) : (pass cmd s).obs = s.obs := rfl
@[simp] theorem pass_pending (cmd : List Byte) (s : State) : (pass cmd s).pending = s.pending := rfl
@[simp] theorem pass_draws (cmd : List Byte) (s : State) : (pass cmd s).draws = s.draws := rfl

/-! ### setPulse -/

@[simp] theorem setPulse_config (s : State) (c : Channel) (p : Pulse) : (s.setPulse c p).config = s.config := rfl
@[simp] theorem setPulse_fstate (s : State) (c : Channel) (p : Pulse) : (s.setPulse c p).fstate = s.fstate := rfl
@[simp] theorem setPulse_buf (s : State) (c : Channel) (p : Pulse) : (s.setPulse c p).buf = s.buf := rfl
@[simp] theorem setPulse_pulses (s : State) (c : Channel) (p : Pulse) : (s.setPulse c p).pulses = s.pulses.set c p := rfl
@[simp] theorem setPulse_now (s : State) (c : Channel) (p : Pulse) : (s.setPulse c p).now = s.now := rfl
@[simp] theorem setPulse_out (s : State) (c : Channel) (p : Pulse) : (s.setPulse c p).out = s.out := rfl
@[simp] theorem setPulse_obs (s : State) (c : Channel) (p : Pulse) : (s.setPulse c p).obs = s.obs := rfl
@[simp] theorem setPulse_pending (s : State) (c : Channel) (p : Pulse) : (s.setPulse c p).pending = s.pending := rfl
@[simp] theorem setPulse_draws (s : State) (c : Channel) (p : Pulse) : (s.setPulse c p).draws = s.draws := rfl

/-! ### serviceChannel -/

@[simp] theorem serviceChannel_config (c : Channel) (s : State) : (serviceChannel c s).config = s.config := rfl
@[simp] theorem serviceChannel_fstate (c : Channel) (s : State) : (serviceChannel c s).fstate = s.fstate := rfl
@[simp] theorem serviceChannel_buf (c : Channel) (s : State) : (serviceChannel c s).buf = s.buf := rfl
@[simp] theorem serviceChannel_pulses (c : Channel) (s : State) : (serviceChannel c s).pulses = s.pulses.set c (servicePulse s.config s.now (s.pulse c)) := rfl
@[simp] theorem serviceChannel_now (c : Channel) (s : State) : (serviceChannel c s).now = s.now := rfl
@[simp] theorem serviceChannel_out (c : Channel) (s : State) : (serviceChannel c s).out = s.out := rfl
@[simp] theorem serviceChannel_obs (c : Channel) (s : State) : (serviceChannel c s).obs = s.obs := rfl
@[simp] theorem serviceChannel_pending (c : Channel) (s : State) : (serviceChannel c s).pending = s.pending := rfl
@[simp] theorem serviceChannel_draws (c : Channel) (s : State) : (serviceChannel c s).draws = s.draws := rfl

/-! ### request -/

@[simp] theorem request_config (c : Channel) (dur : Nat) (s : State) : (request c dur s).config = s.config := rfl
@[simp] theorem request_fstate (c : Channel) (dur : Nat) (s : State) : (request c dur s).fstate = s.fstate := rfl
@[simp] theorem request_buf (c : Channel) (dur : Nat) (s : State) : (request c dur s).buf = s.buf := rfl
@[simp] theorem request_pulses (c : Channel) (dur : Nat) (s : State) : (request c dur s).pulses = s.pulses.set c (requestPulse s.config s.now (min dur s.config.durMax)) := rfl
@[simp] theorem request_now (c : Channel) (dur : Nat) (s : State) : (request c dur s).now = s.now := rfl
@[simp] theorem request_out (c : Channel) (dur : Nat) (s : State) : (request c dur s).out = s.out := rfl
@[simp] theorem request_obs (c : Channel) (dur : Nat) (s : State) : (request c dur s).obs = s.obs ++ (if s.config.durMax < dur then some ObsEvent.saturatedDuration else none).toList := rfl
@[simp] theorem request_pending (c : Channel) (dur : Nat) (s : State) : (request c dur s).pending = s.pending := rfl
@[simp] theorem request_draws (c : Channel) (dur : Nat) (s : State) : (request c dur s).draws = s.draws := rfl

/-! ### resetBlock -/

@[simp] theorem resetBlock_config (s : State) : (resetBlock s).config = s.config := rfl
@[simp] theorem resetBlock_fstate (s : State) : (resetBlock s).fstate = FState.idle := rfl
@[simp] theorem resetBlock_buf (s : State) : (resetBlock s).buf = [] := rfl
@[simp] theorem resetBlock_pulses (s : State) : (resetBlock s).pulses = PulseArray.reset := rfl
@[simp] theorem resetBlock_now (s : State) : (resetBlock s).now = s.now := rfl
@[simp] theorem resetBlock_out (s : State) : (resetBlock s).out = [] := rfl
@[simp] theorem resetBlock_obs (s : State) : (resetBlock s).obs = [] := rfl
@[simp] theorem resetBlock_pending (s : State) : (resetBlock s).pending = s.pending := rfl
@[simp] theorem resetBlock_draws (s : State) : (resetBlock s).draws = s.draws := rfl

/-! ### The channel array -/

@[simp] theorem PulseArray.get_set_same (a : PulseArray) (c : Channel) (p : Pulse) : (a.set c p).get c = p := by
  cases c <;> rfl

theorem PulseArray.get_set_of_ne (a : PulseArray) {c d : Channel} (p : Pulse) (h : d ≠ c) :
    (a.set c p).get d = a.get d := by
  cases c <;> cases d <;> first | rfl | exact absurd rfl h

theorem PulseArray.get_set (a : PulseArray) (c d : Channel) (p : Pulse) :
    (a.set c p).get d = if d = c then p else a.get d := by
  split
  · next h => subst h; exact a.get_set_same d p
  · next h => exact a.get_set_of_ne p h

theorem PulseArray.ext_get {a b : PulseArray} (h : ∀ c, a.get c = b.get c) : a = b := by
  cases a; cases b
  have hn := h .north; have hs := h .south; have he := h .east; have hw := h .west
  simp only [PulseArray.get] at hn hs he hw
  subst hn hs he hw; rfl

@[simp] theorem PulseArray.set_set (a : PulseArray) (c : Channel) (p q : Pulse) : (a.set c p).set c q = a.set c q := by
  cases c <;> rfl

@[simp] theorem PulseArray.reset_get (c : Channel) : PulseArray.reset.get c = Pulse.reset := by cases c <;> rfl

@[simp] theorem State.pulse_setPulse_same (s : State) (c : Channel) (p : Pulse) : (s.setPulse c p).pulse c = p :=
  s.pulses.get_set_same c p

theorem State.pulse_setPulse_of_ne (s : State) {c d : Channel} (p : Pulse) (h : d ≠ c) :
    (s.setPulse c p).pulse d = s.pulse d :=
  s.pulses.get_set_of_ne p h

/-- A request replaces its own channel and leaves the other three. -/
theorem request_pulse (c d : Channel) (dur : Nat) (s : State) :
    (request c dur s).pulse d =
      if d = c then requestPulse s.config s.now (min dur s.config.durMax) else s.pulse d :=
  s.pulses.get_set c d _

/-- A turn of the service loop changes its own channel only. -/
theorem serviceChannel_pulse (c d : Channel) (s : State) :
    (serviceChannel c s).pulse d = if d = c then servicePulse s.config s.now (s.pulse c) else s.pulse d :=
  s.pulses.get_set c d _

/-- The line of a channel is low exactly while its flag is set (10_state.md R31). -/
theorem Pulse.level_eq_drivenLow (p : Pulse) : p.level = .drivenLow ↔ p.active = true := by
  cases h : p.active <;> simp [Pulse.level, h]

end Sys2Proof.Machine
end

