-- ==== Sys2Proof/Laws/Ops.lean ====
section
/-! SUPPORT. Everything each shared operation can answer, said once. -/

namespace Sys2Proof.Machine

/-- A transaction runs its effect exactly in a legal configuration, on an instruction the decode maps give. -/
theorem transact_eq {i : Instr} {s : State} {k : State → Result} (hl : s.config.legal = true)
    (hs : selected s.context i = true) : transact i s k = k s := by
  simp [transact, hl, hs]

/-- What a transaction that completes has met. -/
theorem transact_next_iff {i : Instr} {s t : State} {k : State → Result} :
    transact i s k = .next t ↔ s.config.legal = true ∧ selected s.context i = true ∧ k s = .next t := by
  unfold transact
  split
  · next hl =>
    split
    · next hs => simp [hl, hs]
    · next hs => simp [hs]
  · next hl => simp [hl]

theorem transact_illegal {i : Instr} {s : State} {k : State → Result} (hl : s.config.legal = false) :
    transact i s k = .refused .illegalConfiguration := by
  simp [transact, hl]

theorem transact_notSelected {i : Instr} {s : State} {k : State → Result} (hl : s.config.legal = true)
    (hs : selected s.context i = false) : transact i s k = .refused .notSelected := by
  simp [transact, hl, hs]

/-- A parsed duration is at most DUR_MAX (41_guide_decode.md R138). -/
theorem parseDuration_le {cfg : Config} {cmd : List Byte} {d : Nat} {ev : Option ObsEvent} (hl : cfg.legal = true)
    (h : parseDuration cfg cmd = some (d, ev)) : d ≤ cfg.durMax := by
  unfold parseDuration at h
  split at h
  · cases h; exact Config.defaultGuideMs_le hl
  · unfold numeral at h
    split at h
    · simp only [numeralDigitsOnly, Option.some.injEq] at h
      split at h
      · cases h; exact Nat.zero_le _
      · split at h
        · cases h; exact le_refl _
        · next hle => cases h; exact Nat.le_of_not_lt hle
    · simp only [numeralCStrtol] at h
      split at h
      · cases h; exact Nat.zero_le _
      · split at h
        · cases h
        · next hle => cases h; omega

/-- A numeral is refused in mode C_STRTOL only (30_encoding.md R79). -/
theorem parseDuration_none {cfg : Config} {cmd : List Byte} (h : parseDuration cfg cmd = none) :
    cfg.numeralMode = .cStrtol := by
  unfold parseDuration at h
  split at h
  · cases h
  · unfold numeral at h
    split at h
    · cases h
    · assumption

/-- Everything a guide action can answer: a request for the parsed duration, or the refusal of the numeral. -/
theorem guide_cases (c : Channel) (cmd : List Byte) (s : State) :
    (∃ d ev, parseDuration s.config cmd = some (d, ev) ∧ guide c cmd s = .next (request c d (observe ev s))) ∨
      (parseDuration s.config cmd = none ∧ guide c cmd s = .refused .numeralOutOfRange) := by
  unfold guide
  split
  · next h => exact .inr ⟨h, rfl⟩
  · next d ev h => exact .inl ⟨d, ev, h, rfl⟩

/-- Everything a dispatch can answer: a guide action, or the command passed on (41_guide_decode.md R141). -/
theorem dispatch_cases (cmd : List Byte) (s : State) :
    (∃ c, s.config.mode = .fs2adapter ∧ guideChannel cmd = some c ∧ dispatch cmd s = guide c cmd s) ∨
      ((s.config.mode = .emulator ∨ guideChannel cmd = none) ∧ dispatch cmd s = .next (pass cmd s)) := by
  unfold dispatch
  split
  · next c hm hc => exact .inl ⟨c, hm, hc, rfl⟩
  · next hc => exact .inr ⟨.inr hc, rfl⟩
  · next hm => exact .inr ⟨.inl hm, rfl⟩

/-- A service leaves every field but the channels. -/
theorem service_eq (order : List Channel) (s : State) :
    service order s = { s with pulses := (service order s).pulses } := by
  unfold service
  induction order generalizing s with
  | nil => rfl
  | cons c rest ih => rw [List.foldl_cons, ih]; rfl

/-- A service changes each channel it takes by the per-channel rule, once, and no other (42_pulse_engine.md R164). -/
theorem service_pulse {order : List Channel} (hnd : order.Nodup) (s : State) (d : Channel) :
    (service order s).pulse d = if d ∈ order then servicePulse s.config s.now (s.pulse d) else s.pulse d := by
  unfold service
  induction order generalizing s with
  | nil => simp
  | cons c rest ih =>
    rw [List.foldl_cons, ih hnd.of_cons]
    have hc : c ∉ rest := (List.nodup_cons.mp hnd).1
    rw [serviceChannel_config, serviceChannel_now, serviceChannel_pulse]
    by_cases hdc : d = c
    · subst hdc; simp [hc]
    · simp [hdc]

theorem Channel.mem_all (c : Channel) : c ∈ Channel.all := by cases c <;> decide

theorem Channel.all_nodup : Channel.all.Nodup := by decide

/-- The service of PG, channel by channel. -/
@[simp] theorem service_all_pulse (s : State) (d : Channel) :
    (service Channel.all s).pulse d = servicePulse s.config s.now (s.pulse d) := by
  rw [service_pulse Channel.all_nodup, if_pos (Channel.mem_all d)]

@[simp] theorem service_config (order : List Channel) (s : State) : (service order s).config = s.config := by
  rw [service_eq]
@[simp] theorem service_fstate (order : List Channel) (s : State) : (service order s).fstate = s.fstate := by
  rw [service_eq]
@[simp] theorem service_buf (order : List Channel) (s : State) : (service order s).buf = s.buf := by
  rw [service_eq]
@[simp] theorem service_now (order : List Channel) (s : State) : (service order s).now = s.now := by
  rw [service_eq]
@[simp] theorem service_out (order : List Channel) (s : State) : (service order s).out = s.out := by
  rw [service_eq]
@[simp] theorem service_obs (order : List Channel) (s : State) : (service order s).obs = s.obs := by
  rw [service_eq]
@[simp] theorem service_pending (order : List Channel) (s : State) : (service order s).pending = s.pending := by
  rw [service_eq]
@[simp] theorem service_draws (order : List Channel) (s : State) : (service order s).draws = s.draws := by
  rw [service_eq]

/-! ### Every completed instruction -/

/-- What an instruction that completes does, one case a shape; everything an invariant over `exec` needs. -/
inductive Effect (s : State) : Instr → State → Prop where
  | ack : Effect s .frAck (ackEvent s)
  | start (h : s.fstate = .idle) : Effect s .frStart (append Ascii.colon { s with fstate := .collecting })
  | discard {b : Byte} (h : s.fstate = .idle) : Effect s (.frDiscard b) s
  | overflow {b : Byte} (h : s.fstate = .collecting) (hl : s.config.maxCmdLen ≤ s.len) :
      Effect s (.frOverflow b) (observe (some .overflowDrop) (clearFramer s))
  | endPass (h : s.fstate = .collecting) (hl : s.len < s.config.maxCmdLen)
      (hg : s.config.mode = .emulator ∨ guideChannel (s.buf ++ [Ascii.hash]) = none) :
      Effect s .frEnd (pass (s.buf ++ [Ascii.hash]) (clearFramer s))
  | endGuide {c : Channel} {d : Nat} {ev : Option ObsEvent} (h : s.fstate = .collecting)
      (hl : s.len < s.config.maxCmdLen) (hm : s.config.mode = .fs2adapter)
      (hg : guideChannel (s.buf ++ [Ascii.hash]) = some c)
      (hp : parseDuration s.config (s.buf ++ [Ascii.hash]) = some (d, ev)) :
      Effect s .frEnd (request c d (observe ev (clearFramer s)))
  | append {b : Byte} (h : s.fstate = .collecting) (hl : s.len < s.config.maxCmdLen) (ha : b ≠ Ascii.ack)
      (hh : b ≠ Ascii.hash) : Effect s (.frAppend b) (append b s)
  | guide {c : Channel} {digits : List Byte} {d : Nat} {ev : Option ObsEvent} (hm : s.config.mode = .fs2adapter)
      (hp : parseDuration s.config (guideCommand c digits) = some (d, ev)) :
      Effect s (guideInstr c digits) (request c d (observe ev s))
  | pass {body : List Byte} (hg : s.config.mode = .emulator ∨ guideChannel (commandOf body) = none) :
      Effect s (.gdPass body) (pass (commandOf body) s)
  | reply : Effect s .arReply (ackEvent s)
  | request {c : Channel} {dur : BitVec 32} : Effect s (.pgRequest c dur) (request c dur.toNat s)
  | service : Effect s .pgService (service Channel.all s)
  | reset : Effect s .reset (resetBlock s)
  | now {t : Nat} (h : t < 2 ^ s.config.timeWidth) : Effect s (.envNow t) { s with now := t }

theorem guide_effect {s t : State} {c : Channel} {digits : List Byte} (hm : s.config.mode = .fs2adapter)
    (h : Machine.guide c (guideCommand c digits) s = .next t) : Effect s (guideInstr c digits) t := by
  obtain ⟨d, ev, hp, hg⟩ | ⟨-, hg⟩ := guide_cases c (guideCommand c digits) s
  · rw [hg] at h; cases h; exact .guide hm hp
  · rw [hg] at h; cases h

/-- What each instruction does behind the guard `transact`. -/
def body : Instr → State → Result
  | .frAck, s => .next (ackEvent s)
  | .frStart, s => .next (append Ascii.colon { s with fstate := .collecting })
  | .frDiscard _, s => .next s
  | .frOverflow _, s => .next (observe (some .overflowDrop) (clearFramer s))
  | .frEnd, s => dispatch (s.buf ++ [Ascii.hash]) (clearFramer s)
  | .frAppend b, s => .next (append b s)
  | .gdMgn digits, s => guide .north (guideCommand .north digits) s
  | .gdMgs digits, s => guide .south (guideCommand .south digits) s
  | .gdMge digits, s => guide .east (guideCommand .east digits) s
  | .gdMgw digits, s => guide .west (guideCommand .west digits) s
  | .gdPass body, s => .next (pass (commandOf body) s)
  | .arReply, s => .next (ackEvent s)
  | .pgRequest c dur, s => .next (request c dur.toNat s)
  | .pgService, s => .next (service Channel.all s)
  | .reset, s => .next (resetBlock s)
  | .envNow t, s => .next { s with now := t }

theorem exec_eq_transact (i : Instr) (s : State) : exec i s = transact i s (body i) := by cases i <;> rfl

/-- In a legal configuration a selected instruction is its effect. -/
theorem exec_eq {i : Instr} {s : State} (hl : s.config.legal = true) (hs : selected s.context i = true) :
    exec i s = body i s := by
  rw [exec_eq_transact, transact_eq hl hs]

@[simp] theorem body_guideInstr (c : Channel) (digits : List Byte) (s : State) :
    body (guideInstr c digits) s = Machine.guide c (guideCommand c digits) s := by cases c <;> rfl

theorem collecting_and {f : FState} {p : Prop} [Decidable p] (h : (f == .collecting && decide p) = true) :
    f = .collecting ∧ p := by
  simpa using h

/-- The inversion of `exec`: an instruction that completes found a legal configuration and had one of the effects. -/
theorem exec_next {i : Instr} {s t : State} (h : exec i s = .next t) :
    s.config.legal = true ∧ selected s.context i = true ∧ Effect s i t := by
  rw [exec_eq_transact] at h
  obtain ⟨hl, hs, hk⟩ := transact_next_iff.mp h
  refine ⟨hl, hs, ?_⟩
  simp only [selected, Bool.and_eq_true] at hs
  obtain ⟨hw, hr⟩ := hs
  cases i with
  | frAck => cases hk; exact .ack
  | frStart => cases hk; exact .start (by simpa [rowApplies, State.context] using hr)
  | frDiscard b => cases hk; exact .discard (by simpa [rowApplies, State.context] using hr)
  | frOverflow b =>
    cases hk
    have hr := collecting_and hr
    exact .overflow hr.1 hr.2
  | frEnd =>
    have hr := collecting_and hr
    obtain ⟨c, hm, hc, hd⟩ | ⟨hg, hd⟩ := dispatch_cases (s.buf ++ [Ascii.hash]) (clearFramer s)
    · obtain ⟨d, ev, hp, hg⟩ | ⟨-, hg⟩ := guide_cases c (s.buf ++ [Ascii.hash]) (clearFramer s)
      · cases (hd.trans hg).symm.trans hk; exact .endGuide hr.1 hr.2 hm hc hp
      · cases (hd.trans hg).symm.trans hk
    · cases hd.symm.trans hk; exact .endPass hr.1 hr.2 hg
  | frAppend b =>
    cases hk
    have hr := collecting_and hr
    have hw : b ≠ Ascii.ack ∧ b ≠ Ascii.hash := by simpa [wellFormed] using hw
    exact .append hr.1 hr.2 hw.1 hw.2
  | gdMgn digits => exact guide_effect (c := .north) (by simpa [rowApplies, State.context] using hr) hk
  | gdMgs digits => exact guide_effect (c := .south) (by simpa [rowApplies, State.context] using hr) hk
  | gdMge digits => exact guide_effect (c := .east) (by simpa [rowApplies, State.context] using hr) hk
  | gdMgw digits => exact guide_effect (c := .west) (by simpa [rowApplies, State.context] using hr) hk
  | gdPass body => cases hk; exact .pass (by simpa [rowApplies, State.context, isGuide] using hr)
  | arReply => cases hk; exact .reply
  | pgRequest c dur => cases hk; exact .request
  | pgService => cases hk; exact .service
  | reset => cases hk; exact .reset
  | envNow t => cases hk; exact .now (of_decide_eq_true hw)

/-- What a transaction that completes was: a decoded instruction that completed. -/
theorem perform_next {t : Transaction} {s s' : State} (h : perform t s = .next s') :
    ∃ i, decode s.context t = .ok i ∧ exec i s = .next s' := by
  unfold perform at h
  split at h
  · next i hi => exact ⟨i, hi, h⟩
  · cases h

/-- What a step that changes or keeps the state was: no transaction offered, or the one taken completed. -/
theorem step_next {s s' : State} (h : step s = .next s') :
    (fetch s = none ∧ s' = s) ∨ ∃ t s1, fetch s = some (t, s1) ∧ perform t s1 = .next s' := by
  unfold step at h
  split at h
  · next hf => cases h; exact .inl ⟨hf, rfl⟩
  · next t s1 hf => exact .inr ⟨t, s1, hf, h⟩

/-- Taking a transaction from the schedule changes the schedule and the count of draws only. -/
theorem fetch_frame {s s1 : State} {t : Transaction} (h : fetch s = some (t, s1)) :
    s1 = { s with pending := s1.pending, draws := s1.draws } := by
  unfold fetch at h
  split at h
  · cases h
  · cases h; rfl
  · split at h <;> cases h <;> rfl

/-- An invariant of the block that does not look at the schedule, and that every instruction keeps, is kept by every
step. -/
theorem step_keeps {P : State → Prop} (hsched : ∀ s p d, P s → P { s with pending := p, draws := d })
    (hexec : ∀ i s t, P s → exec i s = .next t → P t) {s t : State} (hs : P s) (h : step s = .next t) : P t := by
  obtain ⟨-, rfl⟩ | ⟨tr, s1, hf, hp⟩ := step_next h
  · exact hs
  · obtain ⟨i, -, hx⟩ := perform_next hp
    refine hexec i s1 t ?_ hx
    rw [fetch_frame hf]
    exact hsched _ _ _ hs

/-! ### Sequences -/

@[simp] theorem andThen_next (s : State) (k : State → Result) : andThen (.next s) k = k s := rfl

theorem andThen_next_iff {r : Result} {k : State → Result} {t : State} :
    andThen r k = .next t ↔ ∃ s, r = .next s ∧ k s = .next t := by
  cases r <;> simp [andThen]

@[simp] theorem performAll_nil (s : State) : performAll [] s = .next s := rfl

theorem performAll_cons (t : Transaction) (ts : List Transaction) (s : State) :
    performAll (t :: ts) s = andThen (perform t s) (performAll ts) := rfl

/-- A sequence in two parts is the second part after the first. -/
theorem performAll_append (xs ys : List Transaction) (s : State) :
    performAll (xs ++ ys) s = andThen (performAll xs s) (performAll ys) := by
  induction xs generalizing s with
  | nil => rfl
  | cons t xs ih =>
    rw [List.cons_append, performAll_cons, performAll_cons]
    cases perform t s with
    | next s1 => exact ih s1
    | fault f => rfl
    | refused e => rfl

end Sys2Proof.Machine
end

