-- ==== Sys2Proof/Laws/Memory.lean ====
section
/-! SUPPORT. The laws of BUF (20_memory.md R51, R52): a read after an append, and that every completed transaction keeps
the buffer's form. -/

namespace Sys2Proof.Machine

/-- The byte appended is read back at the old LEN. -/
theorem memRead_append_len (b : Byte) (s : State) : memRead (append b s) s.len = some b := by
  simp [memRead, State.len]

/-- An append leaves every byte below LEN. -/
theorem memRead_append_of_lt (b : Byte) {s : State} {i : Nat} (h : i < s.len) :
    memRead (append b s) i = memRead s i := by
  simp only [memRead, append_buf]
  exact List.getElem?_append_left h

/-- Nothing is readable at LEN or above (10_state.md R22). -/
theorem memRead_of_len_le {s : State} {i : Nat} (h : s.len ≤ i) : memRead s i = none :=
  List.getElem?_eq_none h

/-- The whole read at dispatch is the reads byte by byte (20_memory.md R52). -/
theorem command_getElem (s : State) (i : Nat) : (command s)[i]? = memRead s i := rfl

theorem append_wf {b : Byte} {s : State} (h : s.len < s.config.maxCmdLen) :
    Memory.wf s.config.maxCmdLen (append b s).buf = true := by
  simp only [Memory.wf, append_buf, List.length_append, List.length_singleton, decide_eq_true_eq]
  exact h

theorem clearFramer_wf (s : State) (n : Nat) : Memory.wf n (clearFramer s).buf = true := by
  simp [Memory.wf]

theorem reset_wf : Memory.wf State.reset.config.maxCmdLen State.reset.buf = true := by decide

/-- Every completed instruction but FR_START in an Idle state that held bytes keeps the buffer's form; with nothing held
in Idle (10_state.md R24) that one does too. -/
theorem exec_keeps_wf {i : Instr} {s t : State} (hidle : s.fstate = .idle → s.len = 0)
    (hw : Memory.wf s.config.maxCmdLen s.buf = true) (h : exec i s = .next t) :
    Memory.wf s.config.maxCmdLen t.buf = true := by
  obtain ⟨hl, -, he⟩ := exec_next h
  have h5 := Config.five_le_maxCmdLen hl
  cases he with
  | start hf =>
    have h0 : s.buf.length = 0 := hidle hf
    simp only [Memory.wf, append_buf, List.length_append, List.length_singleton, decide_eq_true_eq, h0]
    omega
  | append _ hlt _ _ => exact append_wf hlt
  | overflow | endPass | endGuide | reset => simp [Memory.wf]
  | ack | discard | guide | pass | reply | request | service | now => simpa using hw

end Sys2Proof.Machine
end

