-- ==== Sys2Proof/Laws/PerInstr.lean ====
section
/-! SUPPORT. The family Table: the encoding of an instruction is of the format, and matches the match and mask, that
spec/opcode_table.json gives its row (30_encoding.md R84). -/

namespace Sys2Proof.Laws.Table

/-- The formats of spec/opcode_table.json. -/
inductive Format where
  | byte
  | command
  | internal
  | req
  | service
  | reset
  | now
deriving DecidableEq, Repr

/-- The format of a transaction. -/
def formatOf : Transaction → Format
  | .byte _ => .byte
  | .command _ => .command
  | .ackEvent => .internal
  | .req _ _ => .req
  | .service => .service
  | .now _ => .now
  | .reset => .reset

/-- The number the table's match and mask are read on: `b[7:0]`, or the big-endian packing of `cmd[0..3]` (R76). -/
def packed : Transaction → Nat
  | .byte b => b.toNat
  | .command cmd => (cmd.take 4).foldl (fun n b => n * 256 + b.toNat) 0
  | _ => 0

/-- The "format", "match" and "mask" of the instruction's row; the port rows have neither match nor mask. -/
def row : Instr → Format × Nat × Nat
  | .frAck => (.byte, 0x06, 0xFF)
  | .frStart => (.byte, 0x3A, 0xFF)
  | .frDiscard _ => (.byte, 0x00, 0x00)
  | .frOverflow _ => (.byte, 0x00, 0x00)
  | .frEnd => (.byte, 0x23, 0xFF)
  | .frAppend _ => (.byte, 0x00, 0x00)
  | .gdMgn _ => (.command, 0x3A4D676E, 0xFFFFFFFF)
  | .gdMgs _ => (.command, 0x3A4D6773, 0xFFFFFFFF)
  | .gdMge _ => (.command, 0x3A4D6765, 0xFFFFFFFF)
  | .gdMgw _ => (.command, 0x3A4D6777, 0xFFFFFFFF)
  | .gdPass _ => (.command, 0x00000000, 0x00000000)
  | .arReply => (.internal, 0, 0)
  | .pgRequest _ _ => (.req, 0, 0)
  | .pgService => (.service, 0, 0)
  | .reset => (.reset, 0, 0)
  | .envNow _ => (.now, 0, 0)

/-- The encoding fits the instruction's row of the table. -/
def Statement (i : Instr) : Prop :=
  formatOf (encode i) = (row i).1 ∧ packed (encode i) &&& (row i).2.2 = (row i).2.1

theorem frAck : Statement .frAck := ⟨rfl, rfl⟩
theorem frStart : Statement .frStart := ⟨rfl, rfl⟩
theorem frDiscard (b : Byte) : Statement (.frDiscard b) := ⟨rfl, Nat.and_zero _⟩
theorem frOverflow (b : Byte) : Statement (.frOverflow b) := ⟨rfl, Nat.and_zero _⟩
theorem frEnd : Statement .frEnd := ⟨rfl, rfl⟩
theorem frAppend (b : Byte) : Statement (.frAppend b) := ⟨rfl, Nat.and_zero _⟩
theorem gdMgn (digits : List Byte) : Statement (.gdMgn digits) :=
  ⟨rfl, show 0x3A4D676E &&& 0xFFFFFFFF = 0x3A4D676E by decide⟩
theorem gdMgs (digits : List Byte) : Statement (.gdMgs digits) :=
  ⟨rfl, show 0x3A4D6773 &&& 0xFFFFFFFF = 0x3A4D6773 by decide⟩
theorem gdMge (digits : List Byte) : Statement (.gdMge digits) :=
  ⟨rfl, show 0x3A4D6765 &&& 0xFFFFFFFF = 0x3A4D6765 by decide⟩
theorem gdMgw (digits : List Byte) : Statement (.gdMgw digits) :=
  ⟨rfl, show 0x3A4D6777 &&& 0xFFFFFFFF = 0x3A4D6777 by decide⟩
theorem gdPass (body : List Byte) : Statement (.gdPass body) := ⟨rfl, Nat.and_zero _⟩
theorem arReply : Statement .arReply := ⟨rfl, rfl⟩
theorem pgRequest (c : Channel) (dur : BitVec 32) : Statement (.pgRequest c dur) := ⟨rfl, Nat.and_zero _⟩
theorem pgService : Statement .pgService := ⟨rfl, rfl⟩
theorem reset : Statement .reset := ⟨rfl, rfl⟩
theorem envNow (t : Nat) : Statement (.envNow t) := ⟨rfl, Nat.and_zero _⟩

end Sys2Proof.Laws.Table
end

