-- ==== Sys2Proof/Tests/Slice0.lean ====
section
/-! SUPPORT. The model's own tests: vectors of 95_test_vectors.md (each named where it is used), words written out from
30_encoding.md, the smoke test of the checks, and a witness for the hypotheses of every obligation that has some. -/

namespace Sys2Proof.Tests

open Sys2Proof.Machine Sys2Proof.Spec

/-! ### Small states -/

/-- The bytes of a text. -/
def txt (cs : List Char) : List Byte := cs.map fun c => BitVec.ofNat 8 c.toNat

/-- The reset state, Collecting with the bytes given. -/
def holding (bytes : List Byte) : State := { State.reset with fstate := .collecting, buf := bytes }

/-- The reset state with LEN = MAX_CMD_LEN: `':'` and 63 `'A'`. -/
def full : State := holding (0x3A :: List.replicate 63 0x41)

/-- The reset state with room for one byte: `':'` and 62 `'A'`. -/
def nearlyFull : State := holding (0x3A :: List.replicate 62 0x41)

/-- The reset state with channel N as given. -/
def withNorth (active : Bool) (timer : Nat) : State := State.reset.setPulse .north ⟨active, timer⟩

/-- Variant A at a time, with channel E as given. -/
def deadlineAt (now : Nat) (east : Pulse) : State :=
  { State.reset with config := { State.reset.config with timing := .deadline }, now := now }.setPulse .east east

/-- Mode EMULATOR. -/
def emulator : State := { State.reset with config := { State.reset.config with mode := .emulator } }

/-- NUMERAL_MODE = C_STRTOL. -/
def strtol : State := { State.reset with config := { State.reset.config with numeralMode := .cStrtol } }

/-- A configuration outside 00_scope.md R7. -/
def illegal : State := { State.reset with config := { State.reset.config with maxCmdLen := 4 } }

/-- The state an outcome holds. -/
def next? : Result → Option State
  | .next s => some s
  | .fault _ => none
  | .refused _ => none

/-- The name an outcome is refused by. -/
def refusal? : Result → Option Refusal
  | .next _ => none
  | .fault _ => none
  | .refused r => some r

/-! ### Words written out from 30_encoding.md -/

/-- R71: 0x06 = 0000_0110 is a probe, also in Collecting and when BUF is full. -/
theorem test_decode_probe : decode full.context (.byte 0b00000110) = .ok .frAck := by decide
/-- R71, R72 row 2: 0x3A = 0011_1010 in Idle. -/
theorem test_decode_start : decode State.reset.context (.byte 0b00111010) = .ok .frStart := by decide
/-- R72 row 3: `'#'` in Idle. -/
theorem test_decode_discard : decode State.reset.context (.byte 0b00100011) = .ok (.frDiscard 0x23) := by decide
/-- R72 row 4: `'#'` at LEN = MAX_CMD_LEN. -/
theorem test_decode_overflow : decode full.context (.byte 0b00100011) = .ok (.frOverflow 0x23) := by decide
/-- R72 row 5: `'#'` at LEN = MAX_CMD_LEN - 1. -/
theorem test_decode_end : decode nearlyFull.context (.byte 0b00100011) = .ok .frEnd := by decide
/-- R72 row 6: `':'` in Collecting. -/
theorem test_decode_append : decode nearlyFull.context (.byte 0b00111010) = .ok (.frAppend 0x3A) := by decide
/-- R76: 3A 4D 67 6E 30 39 30 23 is `:Mgn090#`. -/
theorem test_decode_mgn :
    decode State.reset.context (.command [0x3A, 0x4D, 0x67, 0x6E, 0x30, 0x39, 0x30, 0x23]) =
      .ok (.gdMgn [0x30, 0x39, 0x30]) := by decide
/-- R76: 3A 4D 67 73 23 is `:Mgs#`. -/
theorem test_decode_mgs :
    decode State.reset.context (.command [0x3A, 0x4D, 0x67, 0x73, 0x23]) = .ok (.gdMgs []) := by decide
/-- R76: 3A 4D 67 65 30 33 32 23 is `:Mge032#`. -/
theorem test_decode_mge :
    decode State.reset.context (.command [0x3A, 0x4D, 0x67, 0x65, 0x30, 0x33, 0x32, 0x23]) =
      .ok (.gdMge [0x30, 0x33, 0x32]) := by decide
/-- R76: 3A 4D 67 77 31 23 is `:Mgw1#`. -/
theorem test_decode_mgw :
    decode State.reset.context (.command [0x3A, 0x4D, 0x67, 0x77, 0x31, 0x23]) = .ok (.gdMgw [0x31]) := by decide
/-- Vector G15: upper case selects no channel. -/
theorem test_decode_pass_upper :
    decode State.reset.context (.command (txt [':', 'M', 'g', 'N', '0', '9', '0', '#'])) =
      .ok (.gdPass (txt ['M', 'g', 'N', '0', '9', '0'])) := by decide
/-- Vector G16: `:Mg#` has four bytes. -/
theorem test_decode_pass_short :
    decode State.reset.context (.command [0x3A, 0x4D, 0x67, 0x23]) = .ok (.gdPass [0x4D, 0x67]) := by decide
/-- Vector G20: in Emulator mode a guide command passes. -/
theorem test_decode_pass_emulator :
    decode emulator.context (.command [0x3A, 0x4D, 0x67, 0x6E, 0x23]) = .ok (.gdPass [0x4D, 0x67, 0x6E]) := by decide
/-- R73: no command without its start marker. -/
theorem test_decode_not_a_command :
    decode State.reset.context (.command [0x4D, 0x23]) = .error .notACommand := by decide
/-- R142. -/
theorem test_decode_reply : decode State.reset.context .ackEvent = .ok .arReply := by decide
/-- R77: DIR = 10 is East. -/
theorem test_decode_request : decode State.reset.context (.req 0b10 90) = .ok (.pgRequest .east 90) := by decide
/-- R78. -/
theorem test_decode_service : decode State.reset.context .service = .ok .pgService := by decide
/-- R78. -/
theorem test_decode_reset : decode State.reset.context .reset = .ok .reset := by decide
/-- R78: T has TIME_WIDTH bits. -/
theorem test_decode_now : decode State.reset.context (.now 0xFFFFFFFF) = .ok (.envNow 0xFFFFFFFF) := by decide
/-- R78: a value of more bits is no transaction. -/
theorem test_decode_now_too_wide : decode State.reset.context (.now 0x100000000) = .error .timeTooWide := by decide

/-! ### Smoke test of the checks: one ill-formed term for each -/

theorem test_wf_discard_probe : wellFormed State.reset.config (.frDiscard 0x06) = false := by decide
theorem test_wf_discard_start : wellFormed State.reset.config (.frDiscard 0x3A) = false := by decide
theorem test_wf_overflow_probe : wellFormed State.reset.config (.frOverflow 0x06) = false := by decide
theorem test_wf_append_probe : wellFormed State.reset.config (.frAppend 0x06) = false := by decide
theorem test_wf_append_end : wellFormed State.reset.config (.frAppend 0x23) = false := by decide
theorem test_wf_mgn_body : wellFormed State.reset.config (.gdMgn [0x23]) = false := by decide
theorem test_wf_mgs_body : wellFormed State.reset.config (.gdMgs [0x06]) = false := by decide
theorem test_wf_mge_body : wellFormed State.reset.config (.gdMge [0x30, 0x23]) = false := by decide
theorem test_wf_mgw_body : wellFormed State.reset.config (.gdMgw [0x30, 0x06]) = false := by decide
theorem test_wf_mgn_long : wellFormed State.reset.config (.gdMgn (List.replicate 60 0x39)) = false := by decide
theorem test_wf_mgs_long : wellFormed State.reset.config (.gdMgs (List.replicate 60 0x39)) = false := by decide
theorem test_wf_mge_long : wellFormed State.reset.config (.gdMge (List.replicate 60 0x39)) = false := by decide
theorem test_wf_mgw_long : wellFormed State.reset.config (.gdMgw (List.replicate 60 0x39)) = false := by decide
theorem test_wf_pass_body : wellFormed State.reset.config (.gdPass [0x23]) = false := by decide
theorem test_wf_pass_long : wellFormed State.reset.config (.gdPass (List.replicate 63 0x41)) = false := by decide
theorem test_wf_now_wide : wellFormed State.reset.config (.envNow 0x100000000) = false := by decide
/-- R7, each bound broken once. -/
theorem test_illegal_configurations :
    (Config.legal { Config.standard .emulator with maxCmdLen := 4 }) = false ∧
    (Config.legal { Config.standard .emulator with defaultGuideMs := 2147483648 }) = false ∧
    (Config.legal { Config.standard .emulator with tickMs := 0 }) = false ∧
    (Config.legal { Config.standard .emulator with timeWidth := 1 }) = false ∧
    (Config.legal { Config.standard .emulator with timerWidth := 1 }) = false ∧
    (Config.legal { Config.standard .emulator with timing := .deadline, timeWidth := 33 }) = false ∧
    (Config.legal { Config.standard .emulator with timing := .deadline, durMax := 2147483648 }) = false ∧
    (Config.legal { Config.standard .emulator with durMax := 2147483648 }) = false ∧
    (Config.legal { Config.standard .emulator with tickMs := 2147483649 }) = false := by decide

/-! ### One step of each instruction -/

/-- Vector F11. -/
theorem test_ack_when_full : (next? (perform (.byte 0x06) full)).map (fun t => (t.out, t.len)) =
    some ([.reply [0x47]], 64) := by decide
/-- Vector F3. -/
theorem test_start : (next? (perform (.byte 0x3A) State.reset)).map (fun t => (t.fstate, t.buf)) =
    some (.collecting, [0x3A]) := by decide
/-- Vector F2. -/
theorem test_discard : next? (perform (.byte 0x23) State.reset) = some State.reset := by decide
/-- Vector F13. -/
theorem test_overflow_by_start : (next? (perform (.byte 0x3A) full)).map (fun t => (t.fstate, t.len, t.obs, t.out)) =
    some (.idle, 0, [.overflowDrop], []) := by decide
/-- Vector F8. -/
theorem test_end_shortest : (next? (perform (.byte 0x23) (holding [0x3A]))).map (fun t => (t.fstate, t.len, t.out)) =
    some (.idle, 0, [.cmd [0x3A, 0x23]]) := by decide
/-- Vector F9: the longest command. -/
theorem test_end_longest : (next? (perform (.byte 0x23) nearlyFull)).map (fun t => (t.len, t.out)) =
    some (0, [.cmd (0x3A :: (List.replicate 62 0x41 ++ [0x23]))]) := by decide
/-- Vector F7. -/
theorem test_append_start : (next? (perform (.byte 0x3A) (holding [0x3A, 0x47, 0x52]))).map (fun t => t.buf) =
    some [0x3A, 0x47, 0x52, 0x3A] := by decide
/-- Vector G1 at the last byte of `:Mgn090#`. -/
theorem test_end_guide :
    (next? (perform (.byte 0x23) (holding [0x3A, 0x4D, 0x67, 0x6E, 0x30, 0x39, 0x30]))).map
      (fun t => (t.pulse .north, t.out, t.len)) = some (⟨true, 90⟩, [], 0) := by decide
/-- Vector G12: saturation. -/
theorem test_mgn_saturates :
    (next? (exec (.gdMgn (txt ['2', '1', '4', '7', '4', '8', '3', '6', '4', '8'])) State.reset)).map
      (fun t => (t.pulse .north, t.obs)) = some (⟨true, 2147483647⟩, [.saturatedDuration]) := by decide
/-- Vector G9 with C_STRTOL. -/
theorem test_mgn_strtol_negative :
    refusal? (exec (.gdMgn (txt ['-', '5'])) strtol) = some .numeralOutOfRange := by decide
/-- Vector G3. -/
theorem test_mgs : (next? (exec (.gdMgs (txt ['2', '5', '0'])) State.reset)).map (fun t => t.pulse .south) =
    some ⟨true, 250⟩ := by decide
/-- Vector G8 on another channel with C_STRTOL: a space is skipped. -/
theorem test_mgs_strtol_space : (next? (exec (.gdMgs (txt [' ', '5'])) strtol)).map
    (fun t => (t.pulse .south, t.obs)) = some (⟨true, 5⟩, []) := by decide
/-- Vector G14 on another channel with DIGITS_ONLY: a sign is no digit. -/
theorem test_mge_sign : (next? (exec (.gdMge (txt ['-', '0'])) State.reset)).map (fun t => (t.pulse .east, t.obs)) =
    some (⟨true, 0⟩, [.nonnumericDuration]) := by decide
/-- Vector A5 by a command: the deadline wraps. -/
theorem test_mge_deadline : (next? (exec (.gdMge (txt ['0', '3', '2'])) (deadlineAt 0xFFFFFFF0 ⟨false, 0⟩))).map
    (fun t => t.pulse .east) = some ⟨true, 0x10⟩ := by decide
/-- Vector G2 on another channel. -/
theorem test_mgw_default : (next? (exec (.gdMgw []) State.reset)).map (fun t => (t.pulse .west, t.obs)) =
    some (⟨true, 1000⟩, [.defaultDuration]) := by decide
/-- Vector G7 on another channel. -/
theorem test_mgw_trailing : (next? (exec (.gdMgw (txt ['1', '2', 'x'])) State.reset)).map (fun t => t.pulse .west) =
    some ⟨true, 12⟩ := by decide
/-- Vector F20. -/
theorem test_pass_emulator : (next? (exec (.gdPass (txt ['X', 'Y', 'Z'])) emulator)).map (fun t => t.out) =
    some [.cmd (txt [':', 'X', 'Y', 'Z', '#'])] := by decide
/-- R142. -/
theorem test_reply : (next? (exec .arReply State.reset)).map (fun t => t.out) = some [.reply [0x47]] := by decide
/-- Vector B8. -/
theorem test_request_saturates : (next? (perform (.req 2 4294967295) State.reset)).map
    (fun t => (t.pulse .east, t.obs)) = some (⟨true, 2147483647⟩, [.saturatedDuration]) := by decide
/-- Vector A3 on channel E: off now. -/
theorem test_request_zero_deadline : (next? (perform (.req 2 0) (deadlineAt 1000 ⟨true, 1090⟩))).map
    (fun t => (t.pulse .east, t.st4 .east)) = some (⟨false, 1000⟩, .hiZ) := by decide
/-- Vector B2: TIMER reads -10. -/
theorem test_service_zero : (next? (perform .service (withNorth true 0))).map
    (fun t => ((t.pulse .north).active, signed 32 (t.pulse .north).timer)) = some (false, -10) := by decide
/-- Vectors A7 and A8: one ms before the deadline the channel stays active, at it the pulse ends. -/
theorem test_service_deadline :
    (next? (perform .service (deadlineAt 0x0F ⟨true, 0x10⟩))).map (fun t => t.pulse .east) = some ⟨true, 0x10⟩ ∧
    (next? (perform .service (deadlineAt 0x10 ⟨true, 0x10⟩))).map (fun t => t.pulse .east) = some ⟨false, 0x10⟩ := by
  decide
/-- Vectors B13 and F19. -/
theorem test_reset : next? (perform .reset { withNorth true 500 with fstate := .collecting, buf := [0x3A, 0x47] }) =
    some State.reset := by decide
/-- R173: a passed deadline does nothing by itself. -/
theorem test_now : (next? (perform (.now 5000) (deadlineAt 1000 ⟨true, 1090⟩))).map
    (fun t => (t.now, t.pulse .east)) = some (5000, ⟨true, 1090⟩) := by decide

/-! ### Witnesses: states and operands that meet the hypotheses of the obligations -/

/-- A selected instruction in a legal configuration answers its effect. -/
theorem exec_answers {i : Instr} {s t : State} (hl : s.config.legal = true) (hs : selected s.context i = true)
    (hb : body i s = .next t) : exec i s = .next t :=
  (exec_eq hl hs).trans hb

/-- A sequence of one transaction. -/
theorem performAll_one {tr : Transaction} {s t : State} (h : perform tr s = .next t) :
    performAll [tr] s = .next t := by
  rw [performAll_cons, h]
  rfl

/-- Feeding one byte. -/
theorem feed_one {b : Byte} {s t : State} (h : perform (.byte b) s = .next t) : feed [b] s = .next t :=
  performAll_one h

theorem witness_ByteDecodeMapRows :
    State.reset.context.config.legal = true ∧
    (State.reset.context.fstate = .idle ∧ State.reset.context.len = 0) ∧
    (full.context.fstate = .collecting ∧ full.context.len = full.context.config.maxCmdLen) ∧
    (nearlyFull.context.fstate = .collecting ∧ nearlyFull.context.len + 1 = nearlyFull.context.config.maxCmdLen) := by
  decide

theorem witness_DecodeOfEncodeIsTheInstruction :
    selected State.reset.context (.gdMgn (List.replicate 59 0x39)) = true ∧
    selected full.context (.frOverflow 0x23) = true ∧ selected State.reset.context (.envNow 0xFFFFFFFF) = true := by
  decide

theorem witness_DecodedInstructionHasThatEncoding :
    decode State.reset.context (.command [0x3A, 0x23]) = .ok (.gdPass []) := by decide

theorem witness_ModeSelectsOnlyHowCommandsDecode :
    (∀ b ∈ List.replicate 62 (0x41 : Byte), BodyByte b) ∧
    (List.replicate 62 (0x41 : Byte)).length + 2 = emulator.context.config.maxCmdLen ∧
    emulator.context.config.mode = .emulator ∧ State.reset.context.config.mode = .fs2adapter ∧
    (∀ cmd, Transaction.byte 0x3A ≠ .command cmd) ∧ decode State.reset.context (.byte 0x3A) ≠ .ok .frEnd ∧
    perform (.byte 0x3A) State.reset = .next (holding [0x3A]) ∧ exec .frStart State.reset = .next (holding [0x3A]) := by
  have h : exec .frStart State.reset = .next (holding [0x3A]) := exec_answers (by decide) (by decide) rfl
  refine ⟨?_, by decide, rfl, rfl, nofun, by decide, h, h⟩
  unfold BodyByte
  decide

theorem witness_StepRunsTheDecodedInstruction :
    ({ State.reset with pending := [.one .service] } : State).pending = [.one .service] ∧
    decode State.reset.context .service = .ok .pgService ∧
    decode State.reset.context (.command []) = .error .notACommand ∧ State.reset.pending = [] := by
  decide

theorem witness_PlacedTableWordRunsAsTheNextStep :
    State.reset.config.legal = true ∧ decodeTableWord 8 0x23 = some .frEnd ∧
    decodeTableWord 32 0x3A4D6765 = some (.gdMge []) := by
  decide

theorem witness_SameInstantPairIsTakenInEitherOrder :
    ({ State.reset with pending := [.par (.req 0 90) .service] } : State).pending =
      .par (.req 0 90) .service :: [] := rfl

theorem witness_RequestRacingServiceEndsInOneOfTwoStates :
    let s : State := { withNorth true 10 with pending := [.par (.req 0 90) .service] }
    s.config.legal = true ∧ s.config.timing = .countdown ∧ s.pending = .par (.req 0 90) .service :: [] := by
  decide

theorem witness_RunPerformsTheScheduleInOrder :
    ({ State.reset with pending := [.one (.byte 0x3A), .one .service] } : State).pending =
      [Transaction.byte 0x3A, .service].map .one := rfl

theorem witness_EveryPortTransactionCompletesButStrtolRefusals :
    State.reset.config.legal = true ∧ (Transaction.now 0xFFFFFFFF).onPort = true ∧
    (∀ v, Transaction.now 0xFFFFFFFF = .now v → v < 2 ^ State.reset.config.timeWidth) :=
  ⟨by decide, rfl, fun v h => by cases h; decide⟩

theorem witness_IllegalConfigurationAndUnselectedAreRefused :
    illegal.config.legal = false ∧ full.config.legal = true ∧ decode full.context (encode .frEnd) ≠ .ok .frEnd := by
  decide

theorem witness_AckProbeRepliesGAndChangesNothingElse : full.config.legal = true := by decide

theorem witness_StartMarkerOpensACommand :
    State.reset.config.legal = true ∧ State.reset.fstate = .idle ∧ State.reset.len = 0 := by decide

theorem witness_OtherBytesInIdleAreDiscarded :
    State.reset.config.legal = true ∧ State.reset.fstate = .idle ∧ (0xFF : Byte) ≠ 0x06 ∧ (0xFF : Byte) ≠ 0x3A := by
  decide

theorem witness_OverflowDropsTheCommand :
    full.config.legal = true ∧ full.fstate = .collecting ∧ full.len = full.config.maxCmdLen ∧ (0x3A : Byte) ≠ 0x06 := by
  decide

theorem witness_EndMarkerDispatchesTheWholeCommand :
    nearlyFull.config.legal = true ∧ FramerInv nearlyFull ∧ nearlyFull.fstate = .collecting ∧
    nearlyFull.len < nearlyFull.config.maxCmdLen := by
  unfold FramerInv
  decide

theorem witness_EndMarkerPassesACommand :
    let s : State := { holding [0x3A, 0x4D, 0x67, 0x6E] with config := emulator.config }
    s.config.legal = true ∧ s.fstate = .collecting ∧ s.len < s.config.maxCmdLen ∧
    (s.config.mode = .emulator ∨ ¬ Guide (s.buf ++ [0x23])) :=
  ⟨by decide, rfl, by decide, .inl rfl⟩

/-- The other alternative of the hypothesis: FS2ADAPTER and no guide command. -/
theorem witness_EndMarkerPassesACommand_noGuide :
    (holding [0x3A]).config.mode = .fs2adapter ∧ ¬ Guide ((holding [0x3A]).buf ++ [0x23]) :=
  ⟨rfl, fun ⟨_, h, _⟩ => absurd h (by decide)⟩

theorem witness_DataByteIsAppended :
    nearlyFull.config.legal = true ∧ nearlyFull.fstate = .collecting ∧ nearlyFull.len + 1 = nearlyFull.config.maxCmdLen ∧
    (0x3A : Byte) ≠ 0x06 ∧ (0x3A : Byte) ≠ 0x23 := by
  decide

theorem witness_CollectingEndsOnlyByEndOverflowOrReset :
    (holding [0x3A]).fstate = .collecting ∧ exec (.frAppend 0x3A) (holding [0x3A]) = .next (holding [0x3A, 0x3A]) :=
  ⟨rfl, exec_answers (by decide) (by decide) rfl⟩

theorem witness_OnlyFramerRowsAndResetChangeTheFramer :
    exec .frStart State.reset = .next (holding [0x3A]) ∧ (holding [0x3A]).fstate ≠ State.reset.fstate :=
  ⟨exec_answers (by decide) (by decide) rfl, by decide⟩

theorem witness_GuideWithoutDigitsRequestsTheDefault : GuideReady [] State.reset :=
  ⟨by decide, rfl, nofun, by decide⟩

theorem witness_DigitsOnlyNumeralRequestsItsValue :
    GuideReady ([0x31, 0x32] ++ [0x78]) State.reset ∧ State.reset.config.numeralMode = .digitsOnly ∧
    (∀ b ∈ ([0x31, 0x32] : List Byte), Digit b) ∧ (∀ b, ([0x78] : List Byte).head? = some b → ¬ Digit b) := by
  refine ⟨⟨by decide, rfl, ?_, by decide⟩, rfl, ?_, ?_⟩
  · unfold BodyByte; decide
  · unfold Digit; decide
  · intro b h; cases h; unfold Digit; decide

/-- The longest digit span, above DUR_MAX (vector G22). -/
theorem witness_DigitsOnlyNumeralRequestsItsValue_longest :
    GuideReady (List.replicate 59 0x39 ++ []) State.reset ∧ (∀ b ∈ List.replicate 59 (0x39 : Byte), Digit b) := by
  refine ⟨⟨by decide, rfl, ?_, by decide⟩, ?_⟩
  · unfold BodyByte; decide
  · unfold Digit; decide

theorem witness_DigitsOnlyNonnumericRequestsZero :
    GuideReady [0x2D, 0x35] State.reset ∧ State.reset.config.numeralMode = .digitsOnly ∧ ¬ Digit 0x2D := by
  refine ⟨⟨by decide, rfl, ?_, by decide⟩, rfl, ?_⟩
  · unfold BodyByte; decide
  · unfold Digit; decide

/-- `" +5x"`: a value; with its first clause's and last clause's spans below. -/
theorem witness_StrtolNumeralRequestsItsValueOrIsRefused :
    GuideReady [0x20, 0x2B, 0x35, 0x78] strtol ∧ strtol.config.numeralMode = .cStrtol ∧
    StrtolSpan [0x20, 0x2B, 0x35, 0x78] 1 [0x35] := by
  refine ⟨⟨by decide, rfl, ?_, by decide⟩, rfl, [0x20], [0x2B], [0x78], rfl, ?_, .inr (.inl ⟨rfl, rfl⟩), ?_, ?_⟩
  · unfold BodyByte; decide
  · unfold Space; decide
  · unfold Digit; decide
  · intro b h; cases h; unfold Digit; decide

/-- `"abc"`: no digit. -/
theorem witness_StrtolNumeral_noDigit : StrtolSpan [0x61, 0x62, 0x63] 1 [] := by
  refine ⟨[], [], [0x61, 0x62, 0x63], rfl, nofun, .inl ⟨rfl, rfl, ?_⟩, nofun, ?_⟩
  · intro b h; cases h; unfold Space; decide
  · intro b h; cases h; unfold Digit; decide

/-- `"-5"` is refused and `"-0"` is not: the value at the lower bound of the range. -/
theorem witness_StrtolNumeral_sign :
    StrtolSpan [0x2D, 0x35] (-1) [0x35] ∧ (-1 : Int) * (decimalSum [0x35] : Int) < 0 ∧
    StrtolSpan [0x2D, 0x30] (-1) [0x30] ∧ (-1 : Int) * (decimalSum [0x30] : Int) = ((0 : Nat) : Int) := by
  refine ⟨⟨[], [0x2D], [], rfl, nofun, .inr (.inr ⟨rfl, rfl⟩), ?_, nofun⟩, by decide,
    ⟨[], [0x2D], [], rfl, nofun, .inr (.inr ⟨rfl, rfl⟩), ?_, nofun⟩, by decide⟩ <;>
  · unfold Digit; decide

theorem witness_PassedCommandIsEmittedUnchanged :
    State.reset.config.legal = true ∧ (∀ b ∈ List.replicate 62 (0x41 : Byte), BodyByte b) ∧
    (List.replicate 62 (0x41 : Byte)).length + 2 ≤ State.reset.config.maxCmdLen ∧
    (State.reset.config.mode = .emulator ∨ ¬ Guide (0x3A :: (List.replicate 62 0x41 ++ [0x23]))) := by
  refine ⟨by decide, ?_, by decide, .inr fun ⟨_, _, _, h, _⟩ => absurd h (by decide)⟩
  unfold BodyByte
  decide

theorem witness_DispatchedCommandIsRequestedOrPassed :
    perform (.command [0x3A, 0x23]) State.reset = .next { State.reset with out := [.cmd [0x3A, 0x23]] } :=
  exec_answers (i := .gdPass []) (by decide) (by decide) rfl

theorem witness_EmulatorBytesNeverChangePulses :
    emulator.config.mode = .emulator ∧ feed [0x78] emulator = .next emulator :=
  ⟨rfl, feed_one (exec_answers (i := .frDiscard 0x78) (s := emulator) (t := emulator) (by decide) (by decide) rfl)⟩

theorem witness_CountdownRequestLoadsTheDuration :
    State.reset.config.legal = true ∧ State.reset.config.timing = .countdown := by decide

theorem witness_DeadlineRequestStoresTheDeadline :
    (deadlineAt 0xFFFFFFF0 ⟨false, 0⟩).config.legal = true ∧
    (deadlineAt 0xFFFFFFF0 ⟨false, 0⟩).config.timing = .deadline := by decide

theorem witness_DeadlineServiceReleasesReachedChannels :
    (deadlineAt 0x10 ⟨true, 0x10⟩).config.legal = true ∧ (deadlineAt 0x10 ⟨true, 0x10⟩).config.timing = .deadline := by
  decide

theorem withNorth_countdownInv : CountdownInv (withNorth true 0) := by
  intro _ c
  cases c <;> decide

theorem witness_CountdownServiceCountsActiveChannels :
    (withNorth true 0).config.legal = true ∧ (withNorth true 0).config.timing = .countdown ∧
    CountdownInv (withNorth true 0) ∧ ((withNorth true 0).pulse .north).active = true ∧
    ((withNorth true 0).pulse .south).active = false :=
  ⟨by decide, rfl, withNorth_countdownInv, rfl, rfl⟩

theorem witness_ServiceOrderDoesNotMatter :
    ([.west, .east, .south, .north] : List Channel).Perm [.north, .south, .east, .west] ∧
    State.reset.config.legal = true := by
  decide

theorem witness_LastRequestWins :
    exec (.pgRequest .north 90) State.reset = .next (withNorth true 90) ∧
    exec (.pgRequest .north 20) (withNorth true 90) = .next (withNorth true 20) ∧
    exec (.pgRequest .north 20) State.reset = .next (withNorth true 20) :=
  ⟨exec_answers (by decide) (by decide) rfl, exec_answers (by decide) (by decide) rfl,
    exec_answers (by decide) (by decide) rfl⟩

theorem witness_CountdownPulseLastsKServices :
    State.reset.config.timing = .countdown ∧ exec (.pgRequest .north 11) State.reset = .next (withNorth true 11) :=
  ⟨rfl, exec_answers (by decide) (by decide) rfl⟩

theorem witness_DeadlinePulseEndsAtTheFirstServiceFromTheDeadline :
    (deadlineAt 0xFFFFFFF0 ⟨false, 0⟩).config.timing = .deadline ∧
    exec (.pgRequest .east 32) (deadlineAt 0xFFFFFFF0 ⟨false, 0⟩) = .next (deadlineAt 0xFFFFFFF0 ⟨true, 0x10⟩) ∧
    (∀ x ∈ [0, 15, 31], x < min (32 : BitVec 32).toNat (deadlineAt 0xFFFFFFF0 ⟨false, 0⟩).config.durMax) :=
  ⟨rfl, exec_answers (by decide) (by decide) rfl, by decide⟩

theorem witness_LateDeadlineServiceMissesTheDeadline :
    exec (.pgRequest .east 10) (deadlineAt 0 ⟨false, 0⟩) = .next (deadlineAt 0 ⟨true, 10⟩) ∧
    1 ≤ min (10 : BitVec 32).toNat (deadlineAt 0 ⟨false, 0⟩).config.durMax ∧ 10 + 2 ^ (32 - 1) ≤ 0x8000000A ∧
    0x8000000A < 10 + 2 ^ 32 :=
  ⟨exec_answers (by decide) (by decide) rfl, by decide, by decide, by decide⟩

theorem witness_PulseEndsEarlyOnlyByRequestOrReset :
    exec (.pgRequest .east 0) (deadlineAt 1050 ⟨true, 1090⟩) = .next (deadlineAt 1050 ⟨false, 1050⟩) ∧
    ((deadlineAt 1050 ⟨true, 1090⟩).pulse .east).active = true ∧
    ((deadlineAt 1050 ⟨false, 1050⟩).pulse .east).active = false ∧ Instr.pgRequest .east 0 ≠ .pgService :=
  ⟨exec_answers (by decide) (by decide) rfl, rfl, rfl, by decide⟩

theorem witness_IdleChannelChangesOnlyByRequestOrReset :
    exec (.pgRequest .north 90) State.reset = .next (withNorth true 90) ∧
    (State.reset.pulse .north).active = false ∧ (withNorth true 90).pulse .north ≠ State.reset.pulse .north :=
  ⟨exec_answers (by decide) (by decide) rfl, rfl, by decide⟩

theorem witness_RequestsOnOtherChannelsDoNotTouchAChannel :
    SameFor .south State.reset (withNorth true 90) ∧
    performAll [.req 0 90] State.reset = .next (withNorth true 90) :=
  ⟨⟨rfl, rfl, rfl, rfl, rfl⟩,
    performAll_one (exec_answers (i := .pgRequest .north 90) (s := State.reset) (t := withNorth true 90) (by decide)
      (by decide) rfl)⟩

/-- A guide command for another channel, which the statement takes out too, and in Emulator mode keeps. -/
theorem witness_RequestsOnOtherChannels_guide :
    performAll [.command (txt [':', 'M', 'g', 'n', '9', '#'])] State.reset = .next (withNorth true 9) ∧
    concerns .fs2adapter .south (.command (txt [':', 'M', 'g', 'n', '9', '#'])) = false ∧
    concerns .fs2adapter .north (.command (txt [':', 'M', 'g', 'n', '9', '#'])) = true ∧
    concerns .emulator .south (.command (txt [':', 'M', 'g', 'n', '9', '#'])) = true :=
  ⟨performAll_one (exec_answers (i := .gdMgn [0x39]) (s := State.reset) (t := withNorth true 9) (by decide) (by decide)
    rfl), by decide, by decide, by decide⟩

theorem witness_PulseEngineIgnoresMode :
    exec (.pgRequest .north 90) State.reset = .next (withNorth true 90) :=
  exec_answers (by decide) (by decide) rfl

theorem witness_ResetRestoresEveryResetValue : full.config.legal = true := by decide

theorem witness_ResetStateHasTheResetValuesAndIsSafe :
    (Config.standard .emulator).legal = true ∧ 0xFFFFFFFF < 2 ^ (Config.standard .emulator).timeWidth := by decide

theorem witness_NowChangeSetsOnlyTheTime :
    State.reset.config.legal = true ∧ 0xFFFFFFFF < 2 ^ State.reset.config.timeWidth := by decide

theorem witness_OnlyNowChangesChangeTheTime :
    exec (.envNow 5) State.reset = .next { State.reset with now := 5 } ∧ 5 ≠ State.reset.now :=
  ⟨exec_answers (by decide) (by decide) rfl, by decide⟩

theorem witness_ConfigurationNeverChanges :
    exec (.envNow 5) State.reset = .next { State.reset with now := 5 } ∧ step State.reset = .next State.reset :=
  ⟨exec_answers (by decide) (by decide) rfl, rfl⟩

theorem witness_TracesOnlyGrowExceptAtReset :
    exec .frAck State.reset = .next { State.reset with out := [.reply [0x47]] } ∧ Instr.frAck ≠ .reset :=
  ⟨exec_answers (by decide) (by decide) rfl, by decide⟩

/-- A step that changes the framer, the registers and nothing of the schedule's kind, from a safe state. -/
theorem witness_FramerInvariantIsKept :
    FramerInv { State.reset with pending := [.one (.byte 0x3A)] } ∧
    step { State.reset with pending := [.one (.byte 0x3A)] } = .next (holding [0x3A]) := by
  refine ⟨?_, exec_answers (i := .frStart) (s := State.reset) (t := holding [0x3A]) (by decide) (by decide) rfl⟩
  unfold FramerInv
  decide

theorem witness_RegisterWidthsAreKept :
    RegistersFit { State.reset with pending := [.one (.req 0 90)] } ∧
    step { State.reset with pending := [.one (.req 0 90)] } = .next (withNorth true 90) :=
  ⟨⟨by decide, fun c => by cases c <;> decide⟩,
    exec_answers (i := .pgRequest .north 90) (s := State.reset) (t := withNorth true 90) (by decide) (by decide) rfl⟩

theorem witness_CountdownRangeIsKept :
    CountdownInv { withNorth true 0 with pending := [.one .service] } ∧
    step { withNorth true 0 with pending := [.one .service] } = .next (withNorth false 0xFFFFFFF6) :=
  ⟨withNorth_countdownInv,
    exec_answers (i := .pgService) (s := withNorth true 0) (t := withNorth false 0xFFFFFFF6) (by decide) (by decide)
      rfl⟩

/-- A start marker, then a request beside the stream; both directions' hypotheses, with a NOW value at its bound. -/
theorem witness_FeedingIsChunkIndependent :
    (∀ x ∈ ([.req 0 90, .service, .now 0xFFFFFFFF] : List Transaction), besideTheStream x = true) ∧
    performAll (chunked [([0x3A], [.req 0 90])]) State.reset =
      .next { withNorth true 90 with fstate := .collecting, buf := [0x3A] } ∧
    State.reset.config.legal = true ∧ 0xFFFFFFFF < 2 ^ State.reset.config.timeWidth ∧
    feed [0x3A] State.reset = .next (holding [0x3A]) := by
  have h : perform (.byte 0x3A) State.reset = .next (holding [0x3A]) :=
    exec_answers (i := .frStart) (s := State.reset) (by decide) (by decide) rfl
  refine ⟨by decide, ?_, by decide, by decide, feed_one h⟩
  show performAll [.byte 0x3A, .req 0 90] State.reset = _
  rw [performAll_cons, h]
  exact performAll_one (tr := .req 0 90) (exec_answers (i := .pgRequest .north 90) (s := holding [0x3A])
    (t := { withNorth true 90 with fstate := .collecting, buf := [0x3A] }) (by decide) (by decide) rfl)

theorem witness_FramedCommandRunsAsOneOperation :
    State.reset.config.legal = true ∧ State.reset.fstate = .idle ∧ State.reset.buf = [] ∧
    (∀ b ∈ List.replicate 62 (0x3A : Byte), BodyByte b) ∧
    (List.replicate 62 (0x3A : Byte)).length + 2 = State.reset.config.maxCmdLen := by
  unfold BodyByte
  decide

theorem witness_OverlongCommandIsDroppedWhole :
    (∀ b ∈ List.replicate 63 (0x3A : Byte) ++ List.replicate 9 0x41, BodyByte b) ∧
    State.reset.config.maxCmdLen < (List.replicate 63 (0x3A : Byte) ++ List.replicate 9 0x41).length + 2 ∧
    (∀ b ∈ (List.replicate 63 (0x3A : Byte) ++ List.replicate 9 0x41).drop State.reset.config.maxCmdLen, b ≠ 0x3A) := by
  unfold BodyByte
  decide

theorem witness_NothingLeaksAfterAnOverflow :
    full.config.legal = true ∧ full.fstate = .collecting ∧ full.len = full.config.maxCmdLen ∧ (0x3A : Byte) ≠ 0x06 ∧
    (∀ x ∈ ([0x06, 0x42, 0x23] : List Byte), x ≠ 0x3A) := by
  decide

theorem witness_AckProbesAreTransparent :
    feed [0x06] State.reset = .next { State.reset with out := [.reply [0x47]] } :=
  feed_one (exec_answers (i := .frAck) (s := State.reset) (t := { State.reset with out := [.reply [0x47]] }) (by decide)
    (by decide) rfl)

end Sys2Proof.Tests
end

section
/-! SUPPORT. Requests one after the other on a channel (20_memory.md R60). -/

namespace Sys2Proof.Machine

/-- A PG_REQUEST that completes made its request and nothing else. -/
theorem eq_request_of_exec_pgRequest {c : Channel} {dur : BitVec 32} {s t : State}
    (h : exec (.pgRequest c dur) s = .next t) : t = request c dur.toNat s := by
  rw [exec_eq_transact] at h
  obtain ⟨-, -, hbody⟩ := transact_next_iff.mp h
  cases hbody
  rfl

/-- The pulse a request loads is made from the configuration, the time and its own duration, none of which the request
before it changed; so the later write to the channel is the only one that counts. -/
theorem request_request_same_pulses (c : Channel) (d₁ d₂ : Nat) (s : State) :
    (request c d₂ (request c d₁ s)).pulses = (request c d₂ s).pulses := by
  simp only [request_pulses, request_config, request_now, PulseArray.set_set]

/-- Of two requests on a channel the first leaves its trace in OBS only. -/
theorem request_request_same (c : Channel) (d₁ d₂ : Nat) (s : State) :
    request c d₂ (request c d₁ s) = { request c d₂ s with obs := (request c d₂ (request c d₁ s)).obs } :=
  calc request c d₂ (request c d₁ s)
    _ = { request c d₂ s with
          pulses := (request c d₂ (request c d₁ s)).pulses
          obs := (request c d₂ (request c d₁ s)).obs } := rfl
    _ = _ := by rw [request_request_same_pulses]

end Sys2Proof.Machine

open Sys2Proof Sys2Proof.Machine

/-- Settles O35: both runs are requests, and the second request on a channel overwrites the first. -/
theorem lastRequestWins : Obligations.LastRequestWins := by
  intro s s1 s2 t c d1 d2 h1 h2 ht
  obtain rfl := eq_request_of_exec_pgRequest h1
  obtain rfl := eq_request_of_exec_pgRequest h2
  obtain rfl := eq_request_of_exec_pgRequest ht
  exact ⟨request_request_same_pulses c d1.toNat d2.toNat s, request_request_same c d1.toNat d2.toNat s⟩
end

section
/-! SUPPORT. The decoder's rows for bytes (30_encoding.md R72), and that the decoder selects what it answers. -/

namespace Sys2Proof

variable {k : Context} {b : Byte}

theorem decodeByte_of_idle_colon (hf : k.fstate = .idle) : decodeByte k Ascii.colon = .frStart := by
  simp [decodeByte, hf, show Ascii.colon ≠ Ascii.ack by decide]

theorem decodeByte_of_idle_of_ne (hf : k.fstate = .idle) (ha : b ≠ Ascii.ack) (hc : b ≠ Ascii.colon) :
    decodeByte k b = .frDiscard b := by
  simp [decodeByte, hf, ha, hc]

theorem decodeByte_of_collecting_hash (hf : k.fstate = .collecting) (hl : k.len < k.config.maxCmdLen) :
    decodeByte k Ascii.hash = .frEnd := by
  simp [decodeByte, hf, hl, show Ascii.hash ≠ Ascii.ack by decide]

/-- The row the byte map takes is one whose conditions hold, also outside the framer invariant. -/
theorem selected_decodeByte (k : Context) (b : Byte) : selected k (decodeByte k b) = true := by
  unfold decodeByte
  split
  · rfl
  · next ha =>
    split
    · next hf =>
      split
      · simp [selected, wellFormed, rowApplies, hf]
      · next hc => simp [selected, wellFormed, rowApplies, hf, ha, hc]
    · next hf =>
      split
      · next hl => simp [selected, wellFormed, rowApplies, hf, ha, hl]
      · next hl =>
        split
        · simpa [selected, wellFormed, rowApplies, hf] using hl
        · next hh => simpa [selected, wellFormed, rowApplies, hf, ha, hh] using hl

theorem selected_guideInstr (c : Channel) {digits : List Byte} (hm : k.config.mode = .fs2adapter)
    (hb : digits.all Ascii.isBody = true) (hl : digits.length + 5 ≤ k.config.maxCmdLen) :
    selected k (guideInstr c digits) = true := by
  cases c <;> simp only [guideInstr, selected, wellFormed, rowApplies, hm, hb, hl, decide_true, Bool.and_self,
    beq_self_eq_true]

theorem selected_gdPass {body : List Byte} (hg : k.config.mode = .emulator ∨ guideChannel (commandOf body) = none)
    (hb : body.all Ascii.isBody = true) (hl : body.length + 2 ≤ k.config.maxCmdLen) :
    selected k (.gdPass body) = true := by
  have hr : rowApplies k (.gdPass body) = true := by simpa [rowApplies, isGuide] using hg
  simp only [selected, wellFormed, hb, hl, hr, decide_true, Bool.and_self]

/-- What the decoder answers is selected, so the guard of `exec` never stops a decoded transaction (log entry 10). -/
theorem selected_of_decode {t : Transaction} {i : Instr} (h : decode k t = .ok i) : selected k i = true := by
  cases t with
  | byte b => cases h; exact selected_decodeByte k b
  | command cmd =>
    obtain ⟨c, digits, hm, -, rfl, hb, hl⟩ | ⟨body, hg, rfl, rfl, hb, hl⟩ := decode_command_cases h
    · exact selected_guideInstr c hm hb hl
    · exact selected_gdPass hg hb hl
  | ackEvent | req | service | reset => cases h; rfl
  | now t =>
    simp only [decode] at h
    split at h
    · next ht => cases h; simp [selected, wellFormed, rowApplies, ht]
    · cases h

end Sys2Proof

namespace Sys2Proof.Machine

variable {s : State} {t : Transaction} {i : Instr}

theorem exec_eq_body_of_decode (hl : s.config.legal = true) (h : decode s.context t = .ok i) :
    exec i s = body i s :=
  exec_eq hl (selected_of_decode h)

theorem perform_of_decode (h : decode s.context t = .ok i) : perform t s = exec i s := by
  simp only [perform, h]

/-- The instruction and the transaction it decodes from do the same: the effect behind the guard. -/
theorem exec_and_perform_of_decode {r : Result} (hl : s.config.legal = true) (h : decode s.context t = .ok i)
    (hr : body i s = r) : exec i s = r ∧ perform t s = r :=
  have hx : exec i s = r := (exec_eq_body_of_decode hl h).trans hr
  ⟨hx, (perform_of_decode h).trans hx⟩

/-! ### Dispatch and the COMMAND transaction -/

theorem dispatch_of_guideChannel {cmd : List Byte} {c : Channel} (hm : s.config.mode = .fs2adapter)
    (hc : guideChannel cmd = some c) : dispatch cmd s = guide c cmd s := by
  simp only [dispatch, hm, hc]

theorem dispatch_of_noGuide {cmd : List Byte} (hg : s.config.mode = .emulator ∨ guideChannel cmd = none) :
    dispatch cmd s = .next (pass cmd s) := by
  obtain ⟨c, hm, hc, -⟩ | ⟨-, hd⟩ := dispatch_cases cmd s
  · simp [hm, hc] at hg
  · exact hd

/-- Dispatch is the effect of the instruction the command decodes to (41_guide_decode.md R130). -/
theorem body_eq_dispatch_of_decode {cmd : List Byte} (h : decode s.context (.command cmd) = .ok i) :
    body i s = dispatch cmd s := by
  obtain ⟨c, digits, hm, rfl, rfl, -, -⟩ | ⟨body, hg, rfl, rfl, -, -⟩ := decode_command_cases h
  · rw [body_guideInstr, dispatch_of_guideChannel hm (guideChannel_guideCommand c digits)]
  · exact (dispatch_of_noGuide hg).symm

/-- With the end marker at its end, what a Collecting framer with room holds is a command of the format of R73. -/
theorem isCommand_buf_hash (hinv : FramerInv s) (hf : s.fstate = .collecting) (hl : s.len < s.config.maxCmdLen) :
    isCommand s.config (s.buf ++ [Ascii.hash]) = true := by
  obtain ⟨-, hcol, hbytes⟩ := hinv
  obtain ⟨-, -, hhead⟩ := hcol hf
  obtain ⟨rest, hbuf⟩ : ∃ rest, s.buf = Ascii.colon :: rest :=
    List.head?_eq_some_iff.mp (List.head?_eq_getElem?.trans hhead)
  have hrest : rest.all Ascii.isBody = true :=
    List.all_eq_true.mpr fun b hb => isBody_iff.mpr (hbytes b (hbuf ▸ List.mem_cons_of_mem _ hb))
  have hlen : rest.length + 2 ≤ s.config.maxCmdLen := by
    simp only [State.len, hbuf, List.length_cons] at hl
    omega
  rw [hbuf]
  exact isCommand_commandOf hrest hlen

end Sys2Proof.Machine

open Sys2Proof Sys2Proof.Machine

/-- Settles O18: FR_END is a dispatch in the cleared state, and a dispatch is the decoded command's effect. -/
theorem endMarkerDispatchesTheWholeCommand : Obligations.EndMarkerDispatchesTheWholeCommand := by
  intro s hl hinv hf hlen
  have hend : decode s.context (.byte Ascii.hash) = .ok .frEnd :=
    congrArg Except.ok (decodeByte_of_collecting_hash hf hlen)
  -- decoding a COMMAND reads the configuration only, which clearing the framer keeps
  obtain ⟨i, hcmd⟩ : ∃ i, decode (clearFramer s).context (.command (s.buf ++ [Ascii.hash])) = .ok i :=
    ⟨_, if_pos (isCommand_buf_hash hinv hf hlen)⟩
  refine ⟨hend, i, hcmd, ?_⟩
  calc exec .frEnd s
    _ = dispatch (s.buf ++ [Ascii.hash]) (clearFramer s) := exec_eq_body_of_decode hl hend
    _ = body i (clearFramer s) := (body_eq_dispatch_of_decode hcmd).symm
    _ = exec i (clearFramer s) := (exec_eq_body_of_decode (s := clearFramer s) hl hcmd).symm

/-- Settles O21: of the effects from Collecting, the remaining ones leave the framer as it is or append a byte. -/
theorem collectingEndsOnlyByEndOverflowOrReset : Obligations.CollectingEndsOnlyByEndOverflowOrReset := by
  intro i s t hf h hend hover hreset
  obtain ⟨-, -, he⟩ := exec_next h
  cases he with
  | start hidle | discard hidle => cases hf.symm.trans hidle
  | overflow => exact absurd rfl (hover _)
  | endPass | endGuide => exact absurd rfl hend
  | reset => exact absurd rfl hreset
  | append => exact ⟨hf, List.prefix_append _ _⟩
  | ack | guide | pass | reply | request | service | now => simp [hf]

/-- Settles O15: the start marker is appended to a buffer that held nothing. -/
theorem startMarkerOpensACommand : Obligations.StartMarkerOpensACommand := by
  intro s hl hf hlen
  have hbuf : s.buf = [] := List.eq_nil_of_length_eq_zero hlen
  have hdec : decode s.context (.byte Ascii.colon) = .ok .frStart := congrArg Except.ok (decodeByte_of_idle_colon hf)
  exact exec_and_perform_of_decode hl hdec (by simp [body, append, hbuf, Ascii.colon])

/-- Settles O16: the byte decodes to FR_DISCARD of itself, whose effect is none. -/
theorem otherBytesInIdleAreDiscarded : Obligations.OtherBytesInIdleAreDiscarded := by
  intro s b hl hf ha hc
  have hdec : decode s.context (.byte b) = .ok (.frDiscard b) := congrArg Except.ok (decodeByte_of_idle_of_ne hf ha hc)
  exact exec_and_perform_of_decode hl hdec rfl
end

section
/-! SUPPORT. The statements' command predicates read as the model's (30_encoding.md R73, 41_guide_decode.md R131). -/

namespace Sys2Proof.Spec

theorem all_isBody_iff {body : List Byte} : body.all Ascii.isBody = true ↔ ∀ b ∈ body, BodyByte b :=
  List.all_eq_true.trans (forall₂_congr fun _ _ => isBody_iff)

theorem letter_eq_letterByte (c : Channel) : c.letter = letterByte c := by cases c <;> rfl

theorem guideChannel_eq_some_iff_guideFor {cmd : List Byte} {c : Channel} :
    guideChannel cmd = some c ↔ GuideFor c cmd := by
  rw [guideChannel_eq_some_iff, letter_eq_letterByte]
  rfl

theorem guideChannel_eq_none_iff_not_guide {cmd : List Byte} : guideChannel cmd = none ↔ ¬ Guide cmd := by
  simp only [Option.eq_none_iff_forall_ne_some, ne_eq, guideChannel_eq_some_iff_guideFor, Guide, not_exists]

end Sys2Proof.Spec

open Sys2Proof Sys2Proof.Machine Sys2Proof.Spec

/-- Settles O27: what is no guide command selects GD_PASS, whose effect is to emit the command of its body. -/
theorem passedCommandIsEmittedUnchanged : Obligations.PassedCommandIsEmittedUnchanged := by
  intro s body hl hb hlen hg
  have hpass : s.config.mode = .emulator ∨ guideChannel (commandOf body) = none :=
    hg.imp_right guideChannel_eq_none_iff_not_guide.mpr
  have hsel : selected s.context (.gdPass body) = true := selected_gdPass hpass (all_isBody_iff.mpr hb) hlen
  exact exec_eq hl hsel
end

section
/-! SUPPORT. What an instruction can answer behind the guard, and which transactions decode to those that can refuse
(60_exceptions.md R200). -/

namespace Sys2Proof

variable {k : Context} {t : Transaction} {i : Instr}

theorem encode_decodeByte (k : Context) (b : Byte) : encode (decodeByte k b) = .byte b := by
  unfold decodeByte
  split
  · next ha => rw [ha, encode]
  · split
    · split
      · next hc => rw [hc, encode]
      · rfl
    · split
      · rfl
      · split
        · next hh => rw [hh, encode]
        · rfl

theorem encode_guideInstr (c : Channel) (digits : List Byte) :
    encode (guideInstr c digits) = .command (guideCommand c digits) := by cases c <;> rfl

/-- A transaction is the encoding of what it decodes to, so it can be read off from the instruction. -/
theorem encode_of_decode (h : decode k t = .ok i) : encode i = t := by
  cases t with
  | byte b => cases h; exact encode_decodeByte k b
  | command cmd =>
    obtain ⟨c, digits, -, rfl, rfl, -, -⟩ | ⟨body, -, rfl, rfl, -, -⟩ := decode_command_cases h
    · exact encode_guideInstr c digits
    · rfl
  | req dir dur => cases h; rw [encode, Channel.code_ofCode]
  | now v =>
    simp only [decode] at h
    split at h <;> cases h
    rfl
  | ackEvent | service | reset => cases h; rfl

/-- What comes in on a port decodes, in every context (30_encoding.md R81): the port has no wires for a wider time. -/
theorem exists_decode_of_onPort (hp : t.onPort = true) (hnow : ∀ v, t = .now v → v < 2 ^ k.config.timeWidth) :
    ∃ i, decode k t = .ok i := by
  cases t with
  | byte b => exact ⟨_, rfl⟩
  | command cmd => cases hp
  | ackEvent => cases hp
  | req dir dur => exact ⟨_, rfl⟩
  | service => exact ⟨_, rfl⟩
  | now v => exact ⟨_, if_pos (hnow v rfl)⟩
  | reset => exact ⟨_, rfl⟩

end Sys2Proof

namespace Sys2Proof.Machine

/-- The answer completes and keeps the configuration of s. -/
def CompletesFrom (s : State) (r : Result) : Prop := ∃ t, r = .next t ∧ t.config = s.config

/-- The answer refuses a numeral, in the numeral mode that can (30_encoding.md R79). -/
def RefusesNumeral (s : State) (r : Result) : Prop :=
  s.config.numeralMode = .cStrtol ∧ r = .refused .numeralOutOfRange

theorem guide_completes_or_refuses (c : Channel) (cmd : List Byte) (s : State) :
    CompletesFrom s (guide c cmd s) ∨ RefusesNumeral s (guide c cmd s) := by
  obtain ⟨d, ev, -, hg⟩ | ⟨hp, hg⟩ := guide_cases c cmd s
  · exact .inl ⟨_, hg, rfl⟩
  · exact .inr ⟨parseDuration_none hp, hg⟩

theorem dispatch_completes_or_refuses (cmd : List Byte) (s : State) :
    CompletesFrom s (dispatch cmd s) ∨ RefusesNumeral s (dispatch cmd s) := by
  obtain ⟨c, -, -, hd⟩ | ⟨-, hd⟩ := dispatch_cases cmd s
  · rw [hd]; exact guide_completes_or_refuses c cmd s
  · exact .inl ⟨_, hd, rfl⟩

/-- Behind the guard every instruction completes, but for a refused numeral of FR_END or of a guide instruction. -/
theorem body_completes_or_refuses (i : Instr) (s : State) :
    CompletesFrom s (body i s) ∨
      RefusesNumeral s (body i s) ∧ (i = .frEnd ∨ ∃ c digits, i = guideInstr c digits) := by
  cases i with
  | frEnd => exact (dispatch_completes_or_refuses _ (clearFramer s)).imp_right fun h => ⟨h, .inl rfl⟩
  | gdMgn digits => exact (guide_completes_or_refuses .north _ s).imp_right fun h => ⟨h, .inr ⟨.north, digits, rfl⟩⟩
  | gdMgs digits => exact (guide_completes_or_refuses .south _ s).imp_right fun h => ⟨h, .inr ⟨.south, digits, rfl⟩⟩
  | gdMge digits => exact (guide_completes_or_refuses .east _ s).imp_right fun h => ⟨h, .inr ⟨.east, digits, rfl⟩⟩
  | gdMgw digits => exact (guide_completes_or_refuses .west _ s).imp_right fun h => ⟨h, .inr ⟨.west, digits, rfl⟩⟩
  | pgService => exact .inl ⟨_, rfl, service_config Channel.all s⟩
  | frAck | frStart | frDiscard | frOverflow | frAppend | gdPass | arReply | pgRequest | reset | envNow =>
    exact .inl ⟨_, rfl, rfl⟩

end Sys2Proof.Machine

open Sys2Proof Sys2Proof.Machine

/-- Settles O11: a port transaction decodes, so it runs its effect; of the effects that can refuse a numeral, only
FR_END's instruction is encoded by a port transaction, the end byte. -/
theorem everyPortTransactionCompletesButStrtolRefusals :
    Obligations.EveryPortTransactionCompletesButStrtolRefusals := by
  intro s t hl hport hnow
  obtain ⟨i, hdec⟩ := exists_decode_of_onPort (k := s.context) hport hnow
  have hrun : perform t s = body i s := (perform_of_decode hdec).trans (exec_eq_body_of_decode hl hdec)
  have henc : encode i = t := encode_of_decode hdec
  rw [hrun]
  obtain hnext | ⟨⟨hmode, hrefused⟩, rfl | ⟨c, digits, rfl⟩⟩ := body_completes_or_refuses i s
  · exact .inl hnext
  · exact .inr ⟨henc.symm, hmode, hrefused⟩
  · -- a COMMAND is made inside the block and comes in on no port
    rw [← henc, encode_guideInstr] at hport
    cases hport
end

section
/-! SUPPORT. The legal configurations, bound by bound (00_scope.md R6, R7). -/

namespace Sys2Proof.Config

/-- Each timing variant has its own bounds, and the other variant's bind nothing (00_scope.md R7). -/
theorem timingLegal_iff (c : Config) :
    c.timingLegal = true ↔
      (c.timing = .deadline → c.timerWidth = c.timeWidth ∧ c.durMax ≤ 2 ^ (c.timeWidth - 1) - 1) ∧
      (c.timing = .countdown → c.durMax ≤ 2 ^ (c.timerWidth - 1) - 1 ∧ c.tickMs ≤ 2 ^ (c.timerWidth - 1)) := by
  cases ht : c.timing <;> simp [timingLegal, ht]

end Sys2Proof.Config

open Sys2Proof

/-- Settles O13: the ranges of R6 one by one, and the constraint of R7 of the variant in use. -/
theorem legalConfigurationsAreThoseOfTheScope : Obligations.LegalConfigurationsAreThoseOfTheScope := by
  intro c
  rw [c.legal_iff, c.timingLegal_iff]
end

section
/-! SUPPORT. Encoding and decoding are inverse: the rows the byte map has left, the command map on the encodings, and
that to be selected is to decode from one's own encoding (30_encoding.md R72, R76). -/

namespace Sys2Proof

variable {k : Context} {b : Byte} {i : Instr}

theorem decodeByte_ack (k : Context) : decodeByte k Ascii.ack = .frAck := if_pos rfl

theorem decodeByte_of_full (hf : k.fstate = .collecting) (hl : k.config.maxCmdLen ≤ k.len) (ha : b ≠ Ascii.ack) :
    decodeByte k b = .frOverflow b := by
  simp [decodeByte, hf, hl, ha]

theorem decodeByte_of_collecting_of_ne (hf : k.fstate = .collecting) (hl : k.len < k.config.maxCmdLen)
    (ha : b ≠ Ascii.ack) (hh : b ≠ Ascii.hash) : decodeByte k b = .frAppend b := by
  simp [decodeByte, hf, hl, ha, hh]

theorem decode_guideCommand (c : Channel) {digits : List Byte} (hm : k.config.mode = .fs2adapter)
    (hb : digits.all Ascii.isBody = true) (hl : digits.length + 5 ≤ k.config.maxCmdLen) :
    decode k (.command (guideCommand c digits)) = .ok (guideInstr c digits) := by
  simp [decode, isCommand_guideCommand c hb hl, classify, hm]

theorem decode_commandOf {body : List Byte} (hg : k.config.mode = .emulator ∨ guideChannel (commandOf body) = none)
    (hb : body.all Ascii.isBody = true) (hl : body.length + 2 ≤ k.config.maxCmdLen) :
    decode k (.command (commandOf body)) = .ok (.gdPass body) := by
  simp only [decode, isCommand_commandOf hb hl, if_true, classify]
  cases hm : k.config.mode with
  | emulator => simp
  | fs2adapter => simp [hg.resolve_left (by simp [hm])]

theorem selected_iff : selected k i = true ↔ wellFormed k.config i = true ∧ rowApplies k i = true := by
  rw [selected, Bool.and_eq_true]

/-- What a guide row asks of its operand: the command format of R73, with the length bound. -/
theorem isBody_and_fits {p : List Byte} {n m : Nat} (h : (p.all Ascii.isBody && decide (n ≤ m)) = true) :
    p.all Ascii.isBody = true ∧ n ≤ m := by
  simpa only [Bool.and_eq_true, decide_eq_true_eq] using h

/-- An instruction whose operands its encoding admits, in a context in which its row is taken, decodes from its
encoding. -/
theorem decode_encode (hw : wellFormed k.config i = true) (hr : rowApplies k i = true) :
    decode k (encode i) = .ok i := by
  cases i with
  | frAck => exact congrArg Except.ok (decodeByte_ack k)
  | frStart => exact congrArg Except.ok (decodeByte_of_idle_colon (eq_of_beq hr))
  | frDiscard b =>
    have hb : b ≠ Ascii.ack ∧ b ≠ Ascii.colon := by simpa [wellFormed] using hw
    exact congrArg Except.ok (decodeByte_of_idle_of_ne (eq_of_beq hr) hb.1 hb.2)
  | frOverflow b =>
    obtain ⟨hf, hl⟩ := Machine.collecting_and hr
    exact congrArg Except.ok (decodeByte_of_full hf hl (by simpa [wellFormed] using hw))
  | frEnd =>
    obtain ⟨hf, hl⟩ := Machine.collecting_and hr
    exact congrArg Except.ok (decodeByte_of_collecting_hash hf hl)
  | frAppend b =>
    obtain ⟨hf, hl⟩ := Machine.collecting_and hr
    have hb : b ≠ Ascii.ack ∧ b ≠ Ascii.hash := by simpa [wellFormed] using hw
    exact congrArg Except.ok (decodeByte_of_collecting_of_ne hf hl hb.1 hb.2)
  | gdMgn digits =>
    obtain ⟨hb, hl⟩ := isBody_and_fits hw
    exact decode_guideCommand .north (eq_of_beq hr) hb hl
  | gdMgs digits =>
    obtain ⟨hb, hl⟩ := isBody_and_fits hw
    exact decode_guideCommand .south (eq_of_beq hr) hb hl
  | gdMge digits =>
    obtain ⟨hb, hl⟩ := isBody_and_fits hw
    exact decode_guideCommand .east (eq_of_beq hr) hb hl
  | gdMgw digits =>
    obtain ⟨hb, hl⟩ := isBody_and_fits hw
    exact decode_guideCommand .west (eq_of_beq hr) hb hl
  | gdPass body =>
    obtain ⟨hb, hl⟩ := isBody_and_fits hw
    exact decode_commandOf (by simpa [rowApplies, isGuide] using hr) hb hl
  | pgRequest c dur => simp only [encode, decode, Channel.ofCode_code]
  | envNow t => exact if_pos (of_decide_eq_true hw)
  | arReply | pgService | reset => rfl

/-- The guard of `exec` is that the instruction decodes from its own encoding. -/
theorem selected_iff_decode_encode : selected k i = true ↔ decode k (encode i) = .ok i :=
  ⟨fun h => have ⟨hw, hr⟩ := selected_iff.mp h; decode_encode hw hr, selected_of_decode⟩

end Sys2Proof

open Sys2Proof Sys2Proof.Machine

/-- Settles O3: row by row, the conditions the encoding leaves out are those of `rowApplies`. -/
theorem decodeOfEncodeIsTheInstruction : Obligations.DecodeOfEncodeIsTheInstruction :=
  fun _ _ hw hr => decode_encode hw hr

/-- Settles O4: the encoder reads the transaction back off the instruction, and what is decoded is selected. -/
theorem decodedInstructionHasThatEncoding : Obligations.DecodedInstructionHasThatEncoding :=
  fun _ _ _ h => ⟨encode_of_decode h, selected_iff.mp (selected_of_decode h)⟩

/-- Settles O12: both refusals are the guard's, and an instruction that is not decoded from its encoding is not
selected. -/
theorem illegalConfigurationAndUnselectedAreRefused : Obligations.IllegalConfigurationAndUnselectedAreRefused := by
  constructor
  · intro i s hl
    rw [exec_eq_transact, transact_illegal hl]
  · intro i s hl hdec
    have hsel : selected s.context i = false := Bool.eq_false_iff.mpr (mt selected_iff_decode_encode.mp hdec)
    rw [exec_eq_transact, transact_notSelected hl hsel]

/-- Settles O2: each row of the map under its condition on FSTATE and LEN. -/
theorem byteDecodeMapRows : Obligations.ByteDecodeMapRows := by
  intro k b _ _ _
  refine ⟨?ack, ?start, ?discard, ?overflow, ?endMarker, ?append⟩
  case ack => rintro rfl; exact congrArg Except.ok (decodeByte_ack k)
  case start => rintro hf rfl; exact congrArg Except.ok (decodeByte_of_idle_colon hf)
  case discard => intro hf ha hc; exact congrArg Except.ok (decodeByte_of_idle_of_ne hf ha hc)
  case overflow => intro hf hl ha; exact congrArg Except.ok (decodeByte_of_full hf hl.ge ha)
  case endMarker => rintro hf hl rfl; exact congrArg Except.ok (decodeByte_of_collecting_hash hf hl)
  case append => intro hf hl ha hh; exact congrArg Except.ok (decodeByte_of_collecting_of_ne hf hl ha hh)

/-- Settles O1: ten fixed words, evaluated. -/
theorem tableWordsDecodeToTheirRows : Obligations.TableWordsDecodeToTheirRows := by
  unfold Obligations.TableWordsDecodeToTheirRows
  decide
end

section
/-! SUPPORT. The frame of a completed instruction: what only certain rows can change (10_state.md R35 to R37). -/

namespace Sys2Proof.Machine

variable {i : Instr} {s t : State}

theorem exec_config (h : exec i s = .next t) : t.config = s.config := by
  obtain ⟨-, -, he⟩ := exec_next h
  cases he with
  | service => exact service_config Channel.all s
  | _ => rfl

/-- The schedule and the count of draws are the step's; no instruction reads or changes them (log entries 4, 6). -/
theorem exec_schedule (h : exec i s = .next t) : t.pending = s.pending ∧ t.draws = s.draws := by
  obtain ⟨-, -, he⟩ := exec_next h
  cases he with
  | service => exact ⟨service_pending Channel.all s, service_draws Channel.all s⟩
  | _ => exact ⟨rfl, rfl⟩

theorem perform_config {tr : Transaction} (h : perform tr s = .next t) : t.config = s.config := by
  obtain ⟨i, -, hx⟩ := perform_next h
  exact exec_config hx

theorem step_config (h : step s = .next t) : t.config = s.config := by
  obtain ⟨-, rfl⟩ | ⟨tr, s1, hf, hp⟩ := step_next h
  · rfl
  · rw [perform_config hp, fetch_frame hf]

end Sys2Proof.Machine

open Sys2Proof Sys2Proof.Machine

/-- Settles O48: no effect changes the configuration, and taking a transaction changes the schedule only. -/
theorem configurationNeverChanges : Obligations.ConfigurationNeverChanges :=
  ⟨fun _ _ _ h => exec_config h, fun _ _ h => step_config h⟩

/-- Settles O22: every other effect leaves FSTATE and BUF. -/
theorem onlyFramerRowsAndResetChangeTheFramer : Obligations.OnlyFramerRowsAndResetChangeTheFramer := by
  intro i s t h hne
  obtain ⟨-, -, he⟩ := exec_next h
  cases he with
  | start => exact .inl rfl
  | endPass | endGuide => exact .inr (.inl rfl)
  | reset => exact .inr (.inr (.inl rfl))
  | overflow => exact .inr (.inr (.inr (.inl ⟨_, rfl⟩)))
  | append => exact .inr (.inr (.inr (.inr ⟨_, rfl⟩)))
  | ack | discard | guide | pass | reply | request | service | now => simp at hne

/-- Settles O47: every other effect leaves NOW. -/
theorem onlyNowChangesChangeTheTime : Obligations.OnlyNowChangesChangeTheTime := by
  intro i s t h hne
  obtain ⟨-, -, he⟩ := exec_next h
  cases he with
  | now => rfl
  | service => exact absurd (service_now Channel.all s) hne
  | _ => exact absurd rfl hne

/-- Settles O49: `emit` and `observe` extend their lists, and only reset empties them. -/
theorem tracesOnlyGrowExceptAtReset : Obligations.TracesOnlyGrowExceptAtReset := by
  intro i s t h hreset
  obtain ⟨-, -, he⟩ := exec_next h
  cases he with
  | reset => exact absurd rfl hreset
  | ack | start | discard | overflow | endPass | endGuide | append | guide | pass | reply | request | service | now =>
    simp
end

section
/-! SUPPORT. Changes of the state that nothing in the block reads: an answer is the same before and after them, refusals
included (10_state.md R41, 42_pulse_engine.md R175). -/

namespace Sys2Proof.Machine

/-- The answer with the state it completes in changed. -/
def mapNext (f : State → State) (r : Result) : Result := andThen r fun t => .next (f t)

@[simp] theorem mapNext_next (f : State → State) (t : State) : mapNext f (.next t) = .next (f t) := rfl

@[simp] theorem mapNext_refused (f : State → State) (e : Refusal) : mapNext f (.refused e) = .refused e := rfl

/-- The state under another MODE. -/
def withMode (m : Mode) (s : State) : State := { s with config := { s.config with mode := m } }

/-- The state with another schedule. -/
def withPending (p : List Arrival) (s : State) : State := { s with pending := p }

/-- A change of the state that a turn of the service loop does not see, a service does not see. -/
theorem service_comm {f : State → State} (hf : ∀ c s, serviceChannel c (f s) = f (serviceChannel c s))
    (order : List Channel) (s : State) : service order (f s) = f (service order s) :=
  List.foldl_hom f fun s c => hf c s

theorem service_withMode (m : Mode) (order : List Channel) (s : State) :
    service order (withMode m s) = withMode m (service order s) :=
  service_comm (fun _ _ => rfl) order s

theorem service_withPending (p : List Arrival) (order : List Channel) (s : State) :
    service order (withPending p s) = withPending p (service order s) :=
  service_comm (fun _ _ => rfl) order s

theorem transact_comm {f : State → State} {i : Instr} {s : State} {k : State → Result}
    (hl : (f s).config.legal = s.config.legal) (hs : selected (f s).context i = selected s.context i)
    (hk : k (f s) = mapNext f (k s)) : transact i (f s) k = mapNext f (transact i s k) := by
  simp only [transact, hl, hs]
  split
  · split
    · exact hk
    · rfl
  · rfl

theorem guide_of_some {c : Channel} {cmd : List Byte} {s : State} {d : Nat} {ev : Option ObsEvent}
    (h : parseDuration s.config cmd = some (d, ev)) : guide c cmd s = .next (request c d (observe ev s)) := by
  simp only [guide, h]

theorem guide_of_none {c : Channel} {cmd : List Byte} {s : State} (h : parseDuration s.config cmd = none) :
    guide c cmd s = .refused .numeralOutOfRange := by
  simp only [guide, h]

/-! ### The schedule -/

theorem guide_withPending (p : List Arrival) (c : Channel) (cmd : List Byte) (s : State) :
    guide c cmd (withPending p s) = mapNext (withPending p) (guide c cmd s) := by
  obtain ⟨d, ev, hp, hg⟩ | ⟨hp, hg⟩ := guide_cases c cmd s
  · rw [hg, guide_of_some (s := withPending p s) hp]
    rfl
  · rw [hg, guide_of_none (s := withPending p s) hp]
    rfl

theorem dispatch_withPending (p : List Arrival) (cmd : List Byte) (s : State) :
    dispatch cmd (withPending p s) = mapNext (withPending p) (dispatch cmd s) := by
  obtain ⟨c, hm, hc, hd⟩ | ⟨hg, hd⟩ := dispatch_cases cmd s
  · rw [hd, ← guide_withPending, dispatch_of_guideChannel (s := withPending p s) hm hc]
  · rw [hd, dispatch_of_noGuide (s := withPending p s) hg]
    rfl

theorem body_withPending (p : List Arrival) (i : Instr) (s : State) :
    body i (withPending p s) = mapNext (withPending p) (body i s) := by
  cases i with
  | frEnd => exact dispatch_withPending p _ (clearFramer s)
  | gdMgn | gdMgs | gdMge | gdMgw => exact guide_withPending p _ _ s
  | pgService => exact congrArg Host.Outcome.next (service_withPending p Channel.all s)
  | frAck | frStart | frDiscard | frOverflow | frAppend | gdPass | arReply | pgRequest | reset | envNow => rfl

theorem exec_withPending (p : List Arrival) (i : Instr) (s : State) :
    exec i (withPending p s) = mapNext (withPending p) (exec i s) := by
  simp only [exec_eq_transact]
  exact transact_comm rfl rfl (body_withPending p i s)

theorem perform_withPending (p : List Arrival) (tr : Transaction) (s : State) :
    perform tr (withPending p s) = mapNext (withPending p) (perform tr s) := by
  have hctx : (withPending p s).context = s.context := rfl
  simp only [perform, hctx]
  split
  · exact exec_withPending p _ s
  · rfl

theorem perform_pending {tr : Transaction} {s t : State} (h : perform tr s = .next t) : t.pending = s.pending := by
  obtain ⟨i, -, hx⟩ := perform_next h
  exact (exec_schedule hx).1

/-- A run of the host's machine is its first step, then the rest. -/
theorem core_run_succ (n : Nat) (s : State) :
    Host.Core.run core (n + 1) s = andThen (step s) (Host.Core.run core n) := by
  have hcore : core.step s = step s := rfl
  cases h : step s <;> simp only [Host.Core.run, hcore, h] <;> rfl

/-! ### MODE -/

/-- The instructions that read MODE: FR_END, which dispatches, and those that only a COMMAND decodes to. -/
def readsMode : Instr → Prop
  | .frEnd => True
  | i => ∃ cmd, encode i = .command cmd

theorem body_withMode (m : Mode) {i : Instr} (hi : ¬ readsMode i) (s : State) :
    body i (withMode m s) = mapNext (withMode m) (body i s) := by
  cases i with
  | frEnd => exact absurd trivial hi
  | gdMgn | gdMgs | gdMge | gdMgw | gdPass => exact absurd ⟨_, rfl⟩ hi
  | pgService => exact congrArg Host.Outcome.next (service_withMode m Channel.all s)
  | frAck | frStart | frDiscard | frOverflow | frAppend | arReply | pgRequest | reset | envNow => rfl

theorem selected_withMode (m : Mode) {i : Instr} (hi : ¬ readsMode i) (s : State) :
    selected (withMode m s).context i = selected s.context i := by
  cases i with
  | frEnd => exact absurd trivial hi
  | gdMgn | gdMgs | gdMge | gdMgw | gdPass => exact absurd ⟨_, rfl⟩ hi
  | frAck | frStart | frDiscard | frOverflow | frAppend | arReply | pgRequest | pgService | reset | envNow => rfl

theorem exec_withMode (m : Mode) {i : Instr} (hi : ¬ readsMode i) (s : State) :
    exec i (withMode m s) = mapNext (withMode m) (exec i s) := by
  simp only [exec_eq_transact]
  exact transact_comm rfl (selected_withMode m hi s) (body_withMode m hi s)

/-- No transaction but a COMMAND is decoded by MODE (30_encoding.md R82). -/
theorem decode_withMode (m : Mode) (k : Context) {tr : Transaction} (htr : ∀ cmd, tr ≠ .command cmd) :
    decode { k with config := { k.config with mode := m } } tr = decode k tr := by
  cases tr with
  | command cmd => exact absurd rfl (htr cmd)
  | byte | ackEvent | req | service | now | reset => rfl

theorem not_readsMode_of_decode {k : Context} {tr : Transaction} {i : Instr} (htr : ∀ cmd, tr ≠ .command cmd)
    (hend : i ≠ .frEnd) (h : decode k tr = .ok i) : ¬ readsMode i := by
  have henc := encode_of_decode h
  cases i with
  | frEnd => exact absurd rfl hend
  | _ => rintro ⟨cmd, hcmd⟩; exact htr cmd (henc.symm.trans hcmd)

end Sys2Proof.Machine

open Sys2Proof Sys2Proof.Machine Sys2Proof.Spec

/-- Settles O10, by induction on the schedule: each step takes the first transaction, which neither reads nor changes
the rest of the schedule. -/
theorem runPerformsTheScheduleInOrder : Obligations.RunPerformsTheScheduleInOrder := by
  intro ts
  induction ts with
  | nil => rintro ⟨⟩ hp; cases hp; rfl
  | cons tr ts ih =>
    intro s hp
    have hstep : step s = mapNext (withPending (ts.map .one)) (perform tr (withPending [] s)) := by
      rw [← perform_withPending]
      simp only [step, fetch, hp, List.map_cons]
      rfl
    show Host.Core.run core (ts.length + 1) s = andThen (perform tr (withPending [] s)) (performAll ts)
    rw [core_run_succ, hstep]
    cases hx : perform tr (withPending [] s) with
    | refused e => rfl
    | fault f => cases f
    | next t =>
      have ht : withPending [] t = t := by
        have := perform_pending hx
        cases t; cases this; rfl
      exact (ih (withPending (ts.map .one) t) rfl).trans (congrArg (performAll ts) ht)

/-- Settles O5: MODE is read by the classification of a COMMAND and, at FR_END, by dispatch; nothing else reads it, and
no effect changes it. -/
theorem modeSelectsOnlyHowCommandsDecode : Obligations.ModeSelectsOnlyHowCommandsDecode := by
  refine ⟨?emulator, ?guide, ?decoding, ?running, ?unchanged⟩
  case emulator =>
    intro k body hb hl hm
    exact decode_commandOf (.inl hm) (all_isBody_iff.mpr hb) hl
  case guide =>
    intro k c digits hb hl hm
    rw [← letter_eq_letterByte]
    exact decode_guideCommand c hm (all_isBody_iff.mpr hb) hl
  case decoding => exact fun k tr m htr => decode_withMode m k htr
  case running =>
    intro s s' tr m htr hend h
    obtain ⟨i, hdec, hx⟩ := perform_next h
    have hi : ¬ readsMode i := not_readsMode_of_decode htr (fun he => hend (he ▸ hdec)) hdec
    have hdec' : decode (withMode m s).context tr = .ok i := (decode_withMode m s.context htr).trans hdec
    calc perform tr (withMode m s)
      _ = exec i (withMode m s) := perform_of_decode hdec'
      _ = mapNext (withMode m) (exec i s) := exec_withMode m hi s
      _ = .next (withMode m s') := by rw [hx, mapNext_next]
  case unchanged => intro i s t h; rw [exec_config h]

/-- Settles O42: neither port operation of PG reads MODE. -/
theorem pulseEngineIgnoresMode : Obligations.PulseEngineIgnoresMode := by
  intro i s t m hi h
  have hm : ¬ readsMode i := by
    obtain rfl | ⟨c, dur, rfl⟩ := hi <;> exact nofun
  show exec i (withMode m s) = .next (withMode m t)
  rw [exec_withMode m hm, h, mapNext_next]
end

section
/-! SUPPORT. What each single transaction answers in a legal configuration, and what a step makes of a schedule. -/

namespace Sys2Proof.Machine

variable {s : State}

theorem perform_service (hl : s.config.legal = true) : perform .service s = .next (service Channel.all s) :=
  exec_eq (i := .pgService) hl rfl

theorem perform_req (hl : s.config.legal = true) (dir : BitVec 2) (dur : BitVec 32) :
    perform (.req dir dur) s = .next (request (Channel.ofCode dir) dur.toNat s) :=
  exec_eq (i := .pgRequest (Channel.ofCode dir) dur) hl rfl

theorem exec_and_perform_now (hl : s.config.legal = true) {v : Nat} (hv : v < 2 ^ s.config.timeWidth) :
    exec (.envNow v) s = .next { s with now := v } ∧ perform (.now v) s = .next { s with now := v } :=
  have hdec : decode s.context (.now v) = .ok (.envNow v) := if_pos hv
  exec_and_perform_of_decode hl hdec rfl

/-- A data byte is appended (40_framer.md R106). -/
theorem exec_and_perform_dataByte {b : Byte} (hl : s.config.legal = true) (hf : s.fstate = .collecting)
    (hlen : s.len < s.config.maxCmdLen) (ha : b ≠ Ascii.ack) (hh : b ≠ Ascii.hash) :
    exec (.frAppend b) s = .next (append b s) ∧ perform (.byte b) s = .next (append b s) :=
  have hdec : decode s.context (.byte b) = .ok (.frAppend b) :=
    congrArg Except.ok (decodeByte_of_collecting_of_ne hf hlen ha hh)
  exec_and_perform_of_decode hl hdec rfl

/-! ### The step -/

theorem step_one {t : Transaction} {rest : List Arrival} (hp : s.pending = .one t :: rest) :
    step s = perform t (withPending rest s) := by
  simp only [step, fetch, hp]
  rfl

theorem step_par {t u : Transaction} {rest : List Arrival} (hp : s.pending = .par t u :: rest) :
    step s = perform t { s with pending := .one u :: rest, draws := s.draws + 1 } ∨
      step s = perform u { s with pending := .one t :: rest, draws := s.draws + 1 } := by
  by_cases h : Config.freeOrder s.draws = true
  · left; simp [step, fetch, hp, h]
  · right; simp [step, fetch, hp, h]

/-! ### The placing of a table word (log entry 13) -/

theorem exists_of_tableTransaction {nbits w : Nat} {t : Transaction} (h : tableTransaction nbits w = some t) :
    (∃ b, t = .byte b) ∨ (∃ v, t = .command (throughHash (bytesOfWord v))) ∨ ∃ dir dur, t = .req dir dur := by
  unfold tableTransaction at h
  split at h
  · split at h <;> cases h
    exact .inl ⟨_, rfl⟩
  · split at h
    · split at h <;> cases h
      exact .inr (.inl ⟨_, rfl⟩)
    · split at h
      · split at h <;> cases h
        exact .inr (.inr ⟨_, _, rfl⟩)
      · cases h

theorem throughHash_length_le (bytes : List Byte) : (throughHash bytes).length ≤ bytes.length + 1 := by
  induction bytes with
  | nil => exact le_refl _
  | cons b rest ih =>
    unfold throughHash
    split
    · simp
    · simpa using ih

/-- A packed command has at most five bytes, so it fits in every legal configuration. -/
theorem throughHash_bytesOfWord_length_le (w : Nat) : (throughHash (bytesOfWord w)).length ≤ 5 :=
  throughHash_length_le (bytesOfWord w)

theorem prepareFramer_pending (t : Transaction) (s : State) : (prepareFramer t s).pending = s.pending := by
  cases t with
  | byte b => simp only [prepareFramer]; split_ifs <;> rfl
  | command | ackEvent | req | service | now | reset => rfl

theorem prepareMode_pending (t : Transaction) (s : State) : (prepareMode t s).pending = s.pending := by
  cases t <;> rfl

/-- The framer of the context a byte's row is read in, and the framer the placing brings it to, give it one meaning. -/
theorem decodeByte_prepareFramer (hl : s.config.legal = true) (b : Byte) :
    decodeByte (prepareFramer (.byte b) s).context b = decodeByte (tableContext (.byte b)) b := by
  have h5 := Config.five_le_maxCmdLen hl
  by_cases ha : b = Ascii.ack
  · rw [ha, decodeByte_ack, decodeByte_ack]
  by_cases hh : b = Ascii.hash
  · subst hh
    rw [decodeByte_of_collecting_hash (k := tableContext (.byte Ascii.hash)) rfl (by decide)]
    simp only [prepareFramer, if_neg ha, if_true]
    split
    · next hr => exact decodeByte_of_collecting_hash hr.1 hr.2
    · exact decodeByte_of_collecting_hash rfl (show 1 < s.config.maxCmdLen by omega)
  · have hidle : (tableContext (.byte b)).fstate = .idle := if_neg hh
    have hplaced : (prepareFramer (.byte b) s).context.fstate = .idle := by simp [prepareFramer, ha, hh, State.context]
    simp only [decodeByte, hidle, hplaced]

/-- What a table word's transaction decodes to where the word is read, it decodes to where the word is placed. -/
theorem decode_prepare {nbits w : Nat} {t : Transaction} {i : Instr} (hl : s.config.legal = true)
    (ht : tableTransaction nbits w = some t) (h : decode (tableContext t) t = .ok i) :
    decode (prepareMode t (prepareFramer t s)).context t = .ok i := by
  obtain ⟨b, rfl⟩ | ⟨v, rfl⟩ | ⟨dir, dur, rfl⟩ := exists_of_tableTransaction ht
  · exact (congrArg Except.ok (decodeByte_prepareFramer hl b)).trans h
  · have hfits := (throughHash_bytesOfWord_length_le v).trans (Config.five_le_maxCmdLen hl)
    generalize throughHash (bytesOfWord v) = cmd at h hfits ⊢
    obtain ⟨c, digits, -, rfl, rfl, hb, -⟩ | ⟨body, hg, rfl, rfl, hb, -⟩ := decode_command_cases h
    · rw [guideCommand_length] at hfits
      exact decode_guideCommand c rfl hb hfits
    · rw [commandOf_length] at hfits
      exact decode_commandOf (.inr (hg.resolve_left (by simp [tableContext, Config.standard]))) hb hfits
  · exact h

end Sys2Proof.Machine

open Sys2Proof Sys2Proof.Machine Sys2Proof.Spec

/-- Settles O6: the step takes the first transaction, decodes it and runs it. -/
theorem stepRunsTheDecodedInstruction : Obligations.StepRunsTheDecodedInstruction := by
  refine ⟨?decoded, ?undecodable, ?empty⟩
  case decoded =>
    intro s t rest i hp hdec
    exact (step_one hp).trans (perform_of_decode (s := withPending rest s) hdec)
  case undecodable =>
    intro s t rest e hp hdec
    have hdec' : decode (withPending rest s).context t = .error e := hdec
    rw [step_one hp, perform, hdec']
  case empty => intro s hp; simp only [step, fetch, hp]

/-- Settles O8: the free value picks one of the two orders. -/
theorem sameInstantPairIsTakenInEitherOrder : Obligations.SameInstantPairIsTakenInEitherOrder :=
  fun _ _ _ _ hp => step_par hp

/-- Settles O7: the placed transaction stands first in the schedule and decodes as the word does. -/
theorem placedTableWordRunsAsTheNextStep : Obligations.PlacedTableWordRunsAsTheNextStep := by
  intro s nbits w i hl h
  unfold decodeTableWord at h
  split at h
  · cases h
  next t ht =>
    split at h <;> cases h
    next hdec =>
      have hplaced : s.withFetchWord nbits w =
          { prepareMode t (prepareFramer t s) with
            pending := .one t :: (prepareMode t (prepareFramer t s)).pending } := by
        simp only [State.withFetchWord, placeTableWord, ht]
      rw [hplaced, step_one rfl, prepareMode_pending, prepareFramer_pending]
      exact perform_of_decode (s := withPending s.pending (prepareMode t (prepareFramer t s)))
        (decode_prepare hl ht hdec)

/-- Settles O14: the probe's row is taken in every context, and both instructions emit the reply. -/
theorem ackProbeRepliesGAndChangesNothingElse : Obligations.AckProbeRepliesGAndChangesNothingElse := by
  intro s hl
  have hdec : decode s.context (.byte Ascii.ack) = .ok .frAck := congrArg Except.ok (decodeByte_ack s.context)
  obtain ⟨hexec, hperform⟩ := exec_and_perform_of_decode hl hdec rfl
  exact ⟨hperform, hexec, exec_eq hl rfl⟩

/-- Settles O17: a full buffer takes every byte but the probe as FR_OVERFLOW. -/
theorem overflowDropsTheCommand : Obligations.OverflowDropsTheCommand := by
  intro s b hl hf hlen ha
  have hdec : decode s.context (.byte b) = .ok (.frOverflow b) :=
    congrArg Except.ok (decodeByte_of_full hf hlen.ge ha)
  exact exec_and_perform_of_decode hl hdec rfl

/-- Settles O19: FR_END dispatches in the cleared state, and what is no guide command is passed. -/
theorem endMarkerPassesACommand : Obligations.EndMarkerPassesACommand := by
  intro s hl hf hlen hg
  have hdec : decode s.context (.byte Ascii.hash) = .ok .frEnd :=
    congrArg Except.ok (decodeByte_of_collecting_hash hf hlen)
  have hpass : s.config.mode = .emulator ∨ guideChannel (s.buf ++ [Ascii.hash]) = none :=
    hg.imp_right guideChannel_eq_none_iff_not_guide.mpr
  exact (exec_eq_body_of_decode hl hdec).trans (dispatch_of_noGuide (s := clearFramer s) hpass)

/-- Settles O20: the byte decodes to FR_APPEND of itself; at LEN it is read back, and at every other index the read is
the one before. -/
theorem dataByteIsAppended : Obligations.DataByteIsAppended := by
  intro s b hl hf hlen ha hh
  obtain ⟨hexec, hperform⟩ := exec_and_perform_dataByte hl hf hlen ha hh
  have hlen' : (append b s).len = s.len + 1 := by simp [State.len]
  refine ⟨append b s, hexec, hperform, rfl, hlen', fun a => ?_⟩
  obtain hlt | rfl | hgt := lt_trichotomy a s.len
  · rw [if_neg hlt.ne, memRead_append_of_lt b hlt]
  · rw [if_pos rfl, memRead_append_len]
  · rw [if_neg hgt.ne', memRead_of_len_le (by omega), memRead_of_len_le hgt.le]

/-- Settles O43: the line is computed from the flag. -/
theorem linesMirrorTheFlags : Obligations.LinesMirrorTheFlags := by
  intro s c
  refine ⟨(s.pulse c).level_eq_drivenLow, ?_⟩
  cases h : (s.pulse c).active <;> simp [State.st4, Pulse.level, h]

/-- Settles O44: the effect of RESET, field by field. -/
theorem resetRestoresEveryResetValue : Obligations.ResetRestoresEveryResetValue := by
  intro s hl
  have hpulse (c : Channel) : (resetBlock s).pulse c = ⟨false, 0⟩ := PulseArray.reset_get c
  refine ⟨resetBlock s, exec_eq hl rfl, rfl, rfl, fun c => ⟨hpulse c, ?_⟩, rfl, rfl, rfl, rfl, rfl, rfl⟩
  rw [State.st4, hpulse]
  rfl

/-- Settles O46: a value of the width decodes, and its effect sets NOW. -/
theorem nowChangeSetsOnlyTheTime : Obligations.NowChangeSetsOnlyTheTime :=
  fun _ _ hl hv => (exec_and_perform_now hl hv).1
end

section
/-! SUPPORT. One request and one service, in both timing variants (42_pulse_engine.md R161 to R166, R174). -/

namespace Sys2Proof.Machine

variable {cfg : Config} {s : State}

/-- What `observe` leaves of an event that is there under a condition. -/
theorem append_ite_toList {α : Type} (xs : List α) (p : Prop) [Decidable p] (x : α) :
    xs ++ (if p then some x else none).toList = if p then xs ++ [x] else xs := by
  split <;> simp

/-- A request changes its channel and OBS, and nothing else (42_pulse_engine.md R161). -/
theorem request_eq (c : Channel) (dur : Nat) (s : State) :
    request c dur s = { s with
      pulses := s.pulses.set c (requestPulse s.config s.now (min dur s.config.durMax))
      obs := if s.config.durMax < dur then s.obs ++ [.saturatedDuration] else s.obs } :=
  calc request c dur s
    _ = { s with
          pulses := s.pulses.set c (requestPulse s.config s.now (min dur s.config.durMax))
          obs := s.obs ++ (if s.config.durMax < dur then some ObsEvent.saturatedDuration else none).toList } := rfl
    _ = _ := by rw [append_ite_toList]

theorem exec_pgRequest (hl : s.config.legal = true) (c : Channel) (dur : BitVec 32) :
    exec (.pgRequest c dur) s = .next (request c dur.toNat s) :=
  exec_eq hl rfl

theorem exec_pgService (hl : s.config.legal = true) : exec .pgService s = .next (service Channel.all s) :=
  exec_eq hl rfl

/-- A service of an active channel in variant B, in the signed reading (42_pulse_engine.md R166, R172). -/
theorem servicePulse_countdown_signed (hl : cfg.legal = true) (ht : cfg.timing = .countdown) (now : Nat) {p : Pulse}
    (hp : p.active = true) (h0 : 0 ≤ signed cfg.timerWidth p.timer)
    (h1 : signed cfg.timerWidth p.timer ≤ cfg.durMax) :
    signed cfg.timerWidth (servicePulse cfg now p).timer = signed cfg.timerWidth p.timer - (cfg.tickMs : Int) ∧
      ((servicePulse cfg now p).active = true ↔ (cfg.tickMs : Int) < signed cfg.timerWidth p.timer) := by
  have hcount := signed_countDown hl ht h0 h1
  rw [servicePulse_countdown_active ht now hp]
  refine ⟨hcount, ?_⟩
  simp only [countExpired, hcount, Bool.not_eq_true', decide_eq_false_iff_not]
  omega

/-- The channels do not touch each other, so a service may take them in any order (42_pulse_engine.md R164). -/
theorem service_eq_service_all {order : List Channel} (hperm : order.Perm Channel.all) (s : State) :
    service order s = service Channel.all s := by
  have hpulses : (service order s).pulses = (service Channel.all s).pulses := by
    refine PulseArray.ext_get fun c => ?_
    calc (service order s).pulse c
      _ = servicePulse s.config s.now (s.pulse c) := by
        rw [service_pulse (hperm.nodup_iff.mpr Channel.all_nodup), if_pos (hperm.mem_iff.mpr (Channel.mem_all c))]
      _ = (service Channel.all s).pulse c := (service_all_pulse s c).symm
  rw [service_eq order, service_eq Channel.all, hpulses]

theorem withPending_of_eq {p : List Arrival} (h : s.pending = p) : withPending p s = s := by
  subst h; rfl

theorem performAll_singleton (t : Transaction) (s : State) : performAll [t] s = perform t s := by
  rw [performAll_cons]
  cases perform t s <;> rfl

/-- Of a pair's two transactions the second is taken in the state the first left. -/
theorem step_after_first {t u : Transaction} {rest : List Arrival} (hp : s.pending = rest) :
    andThen (perform t (withPending (.one u :: rest) s)) step = performAll [t, u] s := by
  rw [perform_withPending, performAll_cons]
  cases h : perform t s with
  | refused e => rfl
  | fault f => cases f
  | next x =>
    have hx : withPending rest x = x := withPending_of_eq ((perform_pending h).trans hp)
    rw [mapNext_next, andThen_next, andThen_next, performAll_singleton, step_one rfl]
    exact congrArg (perform u) hx

/-- Two steps over a pair perform it in one of the two orders (20_memory.md R57). -/
theorem core_run_two_of_par {t u : Transaction} {rest : List Arrival} (hp : s.pending = .par t u :: rest) :
    Host.Core.run core 2 s = performAll [t, u] { s with pending := rest, draws := s.draws + 1 } ∨
      Host.Core.run core 2 s = performAll [u, t] { s with pending := rest, draws := s.draws + 1 } := by
  have hone (x : State) : Host.Core.run core 1 x = step x :=
    (core_run_succ 0 x).trans (by cases step x <;> rfl)
  have hrun : Host.Core.run core 2 s = andThen (step s) step :=
    (core_run_succ 1 s).trans (congrArg (andThen (step s)) (funext hone))
  refine (step_par hp).imp (fun h => hrun.trans ?_) (fun h => hrun.trans ?_)
  · rw [h]; exact step_after_first (s := { s with pending := rest, draws := s.draws + 1 }) rfl
  · rw [h]; exact step_after_first (s := { s with pending := rest, draws := s.draws + 1 }) rfl

theorem performAll_req_service (hl : s.config.legal = true) (dir : BitVec 2) (dur : BitVec 32) :
    performAll [.req dir dur, .service] s =
      .next (service Channel.all (request (Channel.ofCode dir) dur.toNat s)) := by
  rw [performAll_cons, perform_req hl, andThen_next, performAll_singleton]
  exact perform_service hl

theorem performAll_service_req (hl : s.config.legal = true) (dir : BitVec 2) (dur : BitVec 32) :
    performAll [.service, .req dir dur] s =
      .next (request (Channel.ofCode dir) dur.toNat (service Channel.all s)) := by
  rw [performAll_cons, perform_service hl, andThen_next, performAll_singleton, perform_req (by rwa [service_config])]

end Sys2Proof.Machine

open Sys2Proof Sys2Proof.Machine

/-- Settles O30: the request's channel rule in variant B. -/
theorem countdownRequestLoadsTheDuration : Obligations.CountdownRequestLoadsTheDuration := by
  intro s c dur hl ht
  rw [exec_pgRequest hl, request_eq, requestPulse_countdown ht]

/-- Settles O31: the request's channel rule in variant A. -/
theorem deadlineRequestStoresTheDeadline : Obligations.DeadlineRequestStoresTheDeadline := by
  intro s c dur hl ht
  rw [exec_pgRequest hl, request_eq, requestPulse_deadline ht]

/-- Settles O32: the signed test of R165 fails exactly in the upper half of the period. -/
theorem deadlineServiceReleasesReachedChannels : Obligations.DeadlineServiceReleasesReachedChannels := by
  intro s hl ht
  refine ⟨_, exec_pgService hl, service_eq _ s, fun c => ?_⟩
  rw [service_all_pulse, servicePulse_deadline_active ht, Bool.and_eq_true, Bool.not_eq_true',
    ← Bool.not_eq_true, deadlineReached_iff hl, not_lt]
  exact ⟨servicePulse_deadline_timer ht s.now _, Iff.rfl⟩

/-- Settles O33: within the counter range the decrement does not wrap. -/
theorem countdownServiceCountsActiveChannels : Obligations.CountdownServiceCountsActiveChannels := by
  intro s hl ht hinv
  refine ⟨_, exec_pgService hl, service_eq _ s, fun c => ?_⟩
  obtain ⟨-, hmax, hnonneg⟩ := hinv ht c
  rw [service_all_pulse]
  refine ⟨fun hp => ?_, servicePulse_idle s.config s.now⟩
  obtain ⟨htimer, hactive⟩ := servicePulse_countdown_signed hl ht s.now hp (hnonneg hp) hmax
  exact ⟨htimer, by rw [hactive, htimer]; omega⟩

/-- Settles O34: the model's order is one of the orders. -/
theorem serviceOrderDoesNotMatter : Obligations.ServiceOrderDoesNotMatter := by
  intro order s hperm hl
  rw [exec_pgService hl, service_eq_service_all hperm]

/-- Settles O9: a run of two steps over the pair is the two transactions in one of the two orders, and a service takes
TICK_MS off the channel only where the request came before it. -/
theorem requestRacingServiceEndsInOneOfTwoStates : Obligations.RequestRacingServiceEndsInOneOfTwoStates := by
  intro s dir dur rest hl ht hp
  have hloaded : signed s.config.timerWidth (min dur.toNat s.config.durMax) = (min dur.toNat s.config.durMax : Nat) :=
    signed_duration hl ht (min_le_right _ _)
  have hl1 : ({ s with pending := rest, draws := s.draws + 1 } : State).config.legal = true := hl
  obtain hrun | hrun := core_run_two_of_par hp
  · refine ⟨_, hrun.trans (performAll_req_service hl1 dir dur), by simp, by simp, by simp, by simp, by simp, .inl ?_⟩
    obtain ⟨htimer, hactive⟩ := servicePulse_countdown_signed hl ht s.now
      (p := ⟨true, min dur.toNat s.config.durMax⟩) rfl (by rw [hloaded]; omega) (by rw [hloaded]; omega)
    rw [hloaded] at htimer hactive
    rw [service_all_pulse, request_pulse, if_pos rfl, request_config, request_now, requestPulse_countdown ht]
    exact ⟨htimer, hactive⟩
  · refine ⟨_, hrun.trans (performAll_service_req hl1 dir dur), by simp, by simp, by simp, by simp, by simp, .inr ?_⟩
    rw [request_pulse, if_pos rfl, service_config, requestPulse_countdown ht]
    exact ⟨hloaded, rfl⟩
end

section
/-! SUPPORT. The timing law of variant B (42_pulse_engine.md R171, R176): the channel after j services. -/

namespace Sys2Proof.Machine

/-- How many services a pulse of d milliseconds lasts: `max(1, ceil(d / TICK_MS))`. -/
def serviceCount (d tick : Nat) : Nat := max 1 ((d + tick - 1) / tick)

variable {d tick j : Nat}

theorem lt_ceil_iff (htick : 1 ≤ tick) : j < (d + tick - 1) / tick ↔ j * tick < d := by
  rw [Nat.lt_iff_add_one_le, Nat.le_div_iff_mul_le htick, Nat.succ_mul]
  omega

theorem succ_lt_serviceCount_iff (htick : 1 ≤ tick) : j + 1 < serviceCount d tick ↔ (j + 1) * tick < d := by
  rw [serviceCount, lt_max_iff, lt_ceil_iff htick]
  omega

/-- Before its last service a pulse has not counted below 0. -/
theorem mul_le_of_lt_serviceCount (htick : 1 ≤ tick) (h : j < serviceCount d tick) : j * tick ≤ d := by
  cases j with
  | zero => simp
  | succ j => exact ((succ_lt_serviceCount_iff htick).mp h).le

/-- Any number of services completes, and serves each channel that often at the one time. -/
theorem services_complete {s : State} (hl : s.config.legal = true) (j : Nat) :
    ∃ t, services j s = .next t ∧ t.config = s.config ∧ t.now = s.now ∧
      ∀ c, t.pulse c = (servicePulse s.config s.now)^[j] (s.pulse c) := by
  induction j with
  | zero => exact ⟨s, rfl, rfl, rfl, fun _ => rfl⟩
  | succ j ih =>
    obtain ⟨t, ht, hconfig, hnow, hpulse⟩ := ih
    refine ⟨service Channel.all t, ?_, by rw [service_config, hconfig], by rw [service_now, hnow], fun c => ?_⟩
    · unfold services at ht ⊢
      rw [List.replicate_succ', performAll_append, ht, andThen_next, performAll_singleton,
        perform_service (by rwa [hconfig])]
    · rw [service_all_pulse, hconfig, hnow, hpulse, Function.iterate_succ_apply']

/-- The channel a request of d loads, after j services: it counts down to the last service it is active for, and rests
there. -/
theorem servicePulse_iterate_countdown {cfg : Config} (hl : cfg.legal = true) (ht : cfg.timing = .countdown) (now : Nat)
    (hd : d ≤ cfg.durMax) (j : Nat) :
    (((servicePulse cfg now)^[j] ⟨true, d⟩).active = true ↔ j < serviceCount d cfg.tickMs) ∧
      signed cfg.timerWidth ((servicePulse cfg now)^[j] ⟨true, d⟩).timer =
        (d : Int) - (min j (serviceCount d cfg.tickMs) : Nat) * (cfg.tickMs : Int) := by
  have htick := Config.one_le_tickMs hl
  have hone : 1 ≤ serviceCount d cfg.tickMs := le_max_left _ _
  induction j with
  | zero => simpa [signed_duration hl ht hd, Nat.pos_iff_ne_zero] using Nat.one_le_iff_ne_zero.mp hone
  | succ j ih =>
    obtain ⟨hactive, htimer⟩ := ih
    rw [Function.iterate_succ_apply']
    generalize (servicePulse cfg now)^[j] ⟨true, d⟩ = p at hactive htimer ⊢
    by_cases hj : j < serviceCount d cfg.tickMs
    · -- still active: one more tick is taken off
      rw [min_eq_left hj.le] at htimer
      have hle : ((j * cfg.tickMs : Nat) : Int) ≤ d := by exact_mod_cast mul_le_of_lt_serviceCount htick hj
      push_cast at hle
      have h0 : 0 ≤ signed cfg.timerWidth p.timer := by omega
      have h1 : signed cfg.timerWidth p.timer ≤ cfg.durMax := by
        have : (0 : Int) ≤ (j : Int) * cfg.tickMs := by positivity
        omega
      obtain ⟨htimer', hactive'⟩ := servicePulse_countdown_signed hl ht now (hactive.mpr hj) h0 h1
      refine ⟨?_, ?_⟩
      · rw [hactive', htimer, succ_lt_serviceCount_iff htick, Nat.add_one_mul]
        omega
      · rw [htimer', htimer, min_eq_left hj]
        push_cast
        ring
    · -- idle already: a service leaves it
      have hidle : p.active = false := by simpa [hj] using hactive
      have hk := Nat.le_of_not_lt hj
      rw [servicePulse_idle cfg now hidle, htimer, min_eq_right hk, min_eq_right (hk.trans (Nat.le_succ j)), hidle]
      exact ⟨by simp; omega, rfl⟩

end Sys2Proof.Machine

open Sys2Proof Sys2Proof.Machine

/-- Settles O36: the request loads the channel, and services count it down. -/
theorem countdownPulseLastsKServices : Obligations.CountdownPulseLastsKServices := by
  intro s s0 c dur ht h j
  have hl := (exec_next h).1
  obtain rfl := eq_request_of_exec_pgRequest h
  obtain ⟨t, hrun, -, -, hpulse⟩ := services_complete (s := request c dur.toNat s) hl j
  refine ⟨t, hrun, ?_⟩
  rw [hpulse c, request_pulse, if_pos rfl, request_config, request_now, requestPulse_countdown ht]
  exact servicePulse_iterate_countdown hl ht s.now (min_le_right _ _) j
end

section
/-! SUPPORT. The timing laws of variant A (42_pulse_engine.md R170, 70_reset_and_hazards.md R237): services at elapsed
times. -/

namespace Sys2Proof.Machine

open Sys2Proof.Spec

variable {cfg : Config} {s : State}

/-- The deadline of a request of d at time t0 is reached e milliseconds later exactly if e - d lies in the first half of
its period. -/
theorem deadlineReached_elapsed_iff (hl : cfg.legal = true) (t0 d e : Nat) :
    deadlineReached cfg ((t0 + e) % 2 ^ cfg.timeWidth) ((t0 + d) % 2 ^ cfg.timeWidth) = true ↔
      ((e : Int) - d) % ((2 ^ cfg.timeWidth : Nat) : Int) < ((2 ^ (cfg.timeWidth - 1) : Nat) : Int) := by
  rw [deadlineReached_iff hl, Int.natCast_mod, Int.natCast_mod, ← Int.sub_emod]
  congr! 2
  push_cast
  ring

theorem deadlineReached_of_in_window (hl : cfg.legal = true) (t0 : Nat) {d e : Nat} (h : d ≤ e)
    (he : e ≤ d + 2 ^ (cfg.timeWidth - 1) - 1) :
    deadlineReached cfg ((t0 + e) % 2 ^ cfg.timeWidth) ((t0 + d) % 2 ^ cfg.timeWidth) = true := by
  have hw := two_pow_pred (n := cfg.timeWidth) (by have := Config.two_le_timeWidth hl; omega)
  have hpos : 0 < 2 ^ (cfg.timeWidth - 1) := by positivity
  rw [deadlineReached_elapsed_iff hl, Int.emod_eq_of_lt (by omega) (by omega)]
  omega

theorem not_deadlineReached_of_early (hl : cfg.legal = true) (ht : cfg.timing = .deadline) (t0 : Nat) {d e : Nat}
    (hd : d ≤ cfg.durMax) (h : e < d) :
    deadlineReached cfg ((t0 + e) % 2 ^ cfg.timeWidth) ((t0 + d) % 2 ^ cfg.timeWidth) = false := by
  have hw := two_pow_pred (n := cfg.timeWidth) (by have := Config.two_le_timeWidth hl; omega)
  have hmax := (Config.deadline_bounds hl ht).2
  rw [← Bool.not_eq_true, deadlineReached_elapsed_iff hl, ← Int.add_emod_right,
    Int.emod_eq_of_lt (by omega) (by omega)]
  omega

theorem not_deadlineReached_of_late (hl : cfg.legal = true) (t0 : Nat) {d e : Nat}
    (h : d + 2 ^ (cfg.timeWidth - 1) ≤ e) (he : e < d + 2 ^ cfg.timeWidth) :
    deadlineReached cfg ((t0 + e) % 2 ^ cfg.timeWidth) ((t0 + d) % 2 ^ cfg.timeWidth) = false := by
  have hpos : 0 < 2 ^ (cfg.timeWidth - 1) := by positivity
  rw [← Bool.not_eq_true, deadlineReached_elapsed_iff hl, Int.emod_eq_of_lt (by omega) (by omega)]
  omega

/-- A service in variant A leaves a channel whose deadline is not reached. -/
theorem servicePulse_of_not_reached (ht : cfg.timing = .deadline) {now : Nat} {p : Pulse}
    (h : deadlineReached cfg now p.timer = false) : servicePulse cfg now p = p := by
  simp [servicePulse, ht, serviceDeadline, h]

theorem request_pulse_deadline (ht : s.config.timing = .deadline) (c : Channel) (dur : Nat) :
    (request c dur s).pulse c =
      ⟨decide (min dur s.config.durMax ≠ 0), (s.now + min dur s.config.durMax) % 2 ^ s.config.timeWidth⟩ := by
  rw [request_pulse, if_pos rfl, requestPulse_deadline ht]

/-- A service at an elapsed time completes, and serves each channel at that time. -/
theorem serviceAt_complete (hl : s.config.legal = true) (t0 e : Nat) :
    ∃ t, performAll (serviceAt s.config.timeWidth t0 e) s = .next t ∧ t.config = s.config ∧
      ∀ c, t.pulse c = servicePulse s.config ((t0 + e) % 2 ^ s.config.timeWidth) (s.pulse c) := by
  have hfits : (t0 + e) % 2 ^ s.config.timeWidth < 2 ^ s.config.timeWidth := Nat.mod_lt _ (by positivity)
  refine ⟨service Channel.all { s with now := (t0 + e) % 2 ^ s.config.timeWidth }, ?_, service_config _ _,
    service_all_pulse _⟩
  rw [serviceAt, performAll_cons, (exec_and_perform_now hl hfits).2, andThen_next, performAll_singleton]
  exact perform_service hl

/-- Services before a channel's deadline complete and leave it as it is. -/
theorem early_services_keep (ht : s.config.timing = .deadline) (hl : s.config.legal = true) {t0 : Nat} {c : Channel}
    {early : List Nat}
    (hearly : ∀ x ∈ early,
      deadlineReached s.config ((t0 + x) % 2 ^ s.config.timeWidth) (s.pulse c).timer = false) :
    ∃ t, performAll (early.flatMap (serviceAt s.config.timeWidth t0)) s = .next t ∧ t.config = s.config ∧
      t.pulse c = s.pulse c := by
  induction early generalizing s with
  | nil => exact ⟨s, rfl, rfl, rfl⟩
  | cons x early ih =>
    obtain ⟨hx, hrest⟩ := List.forall_mem_cons.mp hearly
    obtain ⟨t, hrun, hconfig, hpulse⟩ := serviceAt_complete hl t0 x
    have hkept : t.pulse c = s.pulse c := (hpulse c).trans (servicePulse_of_not_reached ht hx)
    obtain ⟨u, hrun', hconfig', hkept'⟩ :=
      ih (s := t) (by rwa [hconfig]) (by rwa [hconfig]) (by rwa [hconfig, hkept])
    refine ⟨u, ?_, hconfig'.trans hconfig, hkept'.trans hkept⟩
    rw [List.flatMap_cons, performAll_append, hrun, andThen_next, ← hconfig, hrun']

end Sys2Proof.Machine

open Sys2Proof Sys2Proof.Machine Sys2Proof.Spec

/-- Settles O37: early services leave the channel the request loaded, and a service in the window finds the deadline
reached. -/
theorem deadlinePulseEndsAtTheFirstServiceFromTheDeadline :
    Obligations.DeadlinePulseEndsAtTheFirstServiceFromTheDeadline := by
  intro s s0 c dur early e ht h d W hearly
  have hl := (exec_next h).1
  obtain rfl := eq_request_of_exec_pgRequest h
  have hloaded : (request c dur.toNat s).pulse c = ⟨decide (d ≠ 0), (s.now + d) % 2 ^ W⟩ :=
    request_pulse_deadline ht c dur.toNat
  obtain ⟨t, hrun, hconfig, hkept⟩ := early_services_keep (s := request c dur.toNat s) (t0 := s.now) (c := c)
    (early := early) ht hl
    (by rw [hloaded]; exact fun x hx => not_deadlineReached_of_early hl ht s.now (min_le_right _ _) (hearly x hx))
  rw [hloaded] at hkept
  change t.config = s.config at hconfig
  refine ⟨t, hrun, ?_, fun hde he => ?_⟩
  · rw [hkept]
    simp only [decide_eq_true_eq]
    omega
  · obtain ⟨u, hrun', -, hpulse⟩ := serviceAt_complete (s := t) (by rwa [hconfig]) s.now e
    rw [hconfig] at hrun' hpulse
    refine ⟨u, hrun', ?_⟩
    have hreached : deadlineReached s.config ((s.now + e) % 2 ^ W) ((s.now + d) % 2 ^ W) = true :=
      deadlineReached_of_in_window hl s.now hde he
    rw [hpulse c, hkept, servicePulse_deadline_active ht]
    show (_ && !deadlineReached s.config _ _) = false
    rw [hreached, Bool.not_true, Bool.and_false]

/-- Settles O38: half a period late the signed difference is negative again. -/
theorem lateDeadlineServiceMissesTheDeadline : Obligations.LateDeadlineServiceMissesTheDeadline := by
  intro s s0 c dur e ht h d W hd hlate hwrap
  have hl := (exec_next h).1
  obtain rfl := eq_request_of_exec_pgRequest h
  have hloaded : (request c dur.toNat s).pulse c = ⟨decide (d ≠ 0), (s.now + d) % 2 ^ W⟩ :=
    request_pulse_deadline ht c dur.toNat
  obtain ⟨u, hrun, -, hpulse⟩ := serviceAt_complete (s := request c dur.toNat s) hl s.now e
  have hmissed : deadlineReached s.config ((s.now + e) % 2 ^ W) ((s.now + d) % 2 ^ W) = false :=
    not_deadlineReached_of_late hl s.now hlate hwrap
  have hkept : u.pulse c = ⟨decide (d ≠ 0), (s.now + d) % 2 ^ W⟩ := by
    rw [hpulse c, hloaded]
    exact servicePulse_of_not_reached ht hmissed
  refine ⟨u, hrun, ?_⟩
  rw [hkept]
  exact decide_eq_true (by omega)
end

section
/-! SUPPORT. What a completed instruction can do to one channel (42_pulse_engine.md R169, R172, R176). -/

namespace Sys2Proof.Machine

open Sys2Proof.Spec

/-- The instruction makes a request on channel c: as a REQ, as a guide instruction, or as the end byte of one. -/
def RequestsOn (s : State) (i : Instr) (c : Channel) : Prop :=
  (∃ dur, i = .pgRequest c dur) ∨ (∃ digits, i = guideInstr c digits) ∨
    (i = .frEnd ∧ s.config.mode = .fs2adapter ∧ GuideFor c (s.buf ++ [0x23]))

/-- What an instruction that completes leaves of channel c. -/
inductive ChannelChange (s : State) (i : Instr) (c : Channel) : Pulse → Prop where
  | kept : ChannelChange s i c (s.pulse c)
  | request {d : Nat} (h : RequestsOn s i c) (hd : d ≤ s.config.durMax) :
      ChannelChange s i c (requestPulse s.config s.now d)
  | service (h : i = .pgService) : ChannelChange s i c (servicePulse s.config s.now (s.pulse c))
  | reset (h : i = .reset) : ChannelChange s i c Pulse.reset

variable {i : Instr} {s t : State}

/-- A request changes its own channel, and leaves every other one. -/
theorem channelChange_request {c c' : Channel} {dur : Nat} (hreq : RequestsOn s i c') :
    ChannelChange s i c ((request c' dur s).pulse c) := by
  rw [request_pulse]
  split
  · next hc => exact .request (hc ▸ hreq) (min_le_right _ _)
  · exact .kept

/-- The inversion of `exec` for one channel. -/
theorem exec_channelChange (h : exec i s = .next t) (c : Channel) : ChannelChange s i c (t.pulse c) := by
  obtain ⟨-, -, he⟩ := exec_next h
  cases he with
  | request => exact channelChange_request (.inl ⟨_, rfl⟩)
  | guide => exact channelChange_request (.inr (.inl ⟨_, rfl⟩))
  | endGuide _ _ hm hg =>
    exact channelChange_request (.inr (.inr ⟨rfl, hm, guideChannel_eq_some_iff_guideFor.mp hg⟩))
  | service => rw [service_all_pulse]; exact .service rfl
  | reset => rw [State.pulse, resetBlock_pulses, PulseArray.reset_get]; exact .reset rfl
  | ack | start | discard | overflow | endPass | append | pass | reply | now => exact .kept

end Sys2Proof.Machine

open Sys2Proof Sys2Proof.Machine

/-- Settles O39: besides a service only a request and reset leave a channel idle, and a request only in variant A. -/
theorem pulseEndsEarlyOnlyByRequestOrReset : Obligations.PulseEndsEarlyOnlyByRequestOrReset := by
  intro i s t c h hactive hidle hservice
  have hchange := exec_channelChange h c
  generalize t.pulse c = p at hidle hchange
  cases hchange with
  | kept => exact absurd (hactive.symm.trans hidle) (by decide)
  | service hi => exact absurd hi hservice
  | reset hi => exact .inl hi
  | request hreq _ =>
    refine .inr ⟨?_, hreq⟩
    cases ht : s.config.timing with
    | deadline => rfl
    | countdown => rw [requestPulse_countdown ht] at hidle; cases hidle

/-- Settles O40: besides a request and reset a channel is kept or served, and a service keeps an idle one. -/
theorem idleChannelChangesOnlyByRequestOrReset : Obligations.IdleChannelChangesOnlyByRequestOrReset := by
  intro i s t c h hidle hne
  have hchange := exec_channelChange h c
  generalize t.pulse c = p at hne hchange
  cases hchange with
  | kept => exact absurd rfl hne
  | service => exact absurd (servicePulse_idle s.config s.now hidle) hne
  | reset hi => exact .inl hi
  | request hreq _ => exact .inr hreq
end

section
/-! SUPPORT. The invariants of the registers and of the framer (10_state.md R24, R30, R33, 42_pulse_engine.md R172). -/

namespace Sys2Proof.Machine

variable {cfg : Config}

/-! ### The width of a timer -/

theorem requestPulse_timer_lt (hl : cfg.legal = true) (now : Nat) {d : Nat} (hd : d ≤ cfg.durMax) :
    (requestPulse cfg now d).timer < 2 ^ cfg.timerWidth := by
  cases ht : cfg.timing with
  | deadline =>
    rw [requestPulse_deadline ht, (Config.deadline_bounds hl ht).1]
    exact Nat.mod_lt _ (by positivity)
  | countdown =>
    have hmax := (Config.countdown_bounds hl ht).1
    have hw := two_pow_pred (n := cfg.timerWidth) (by have := Config.two_le_timerWidth hl; omega)
    rw [requestPulse_countdown ht]
    show d < _
    omega

theorem servicePulse_timer_lt (now : Nat) {p : Pulse} (hp : p.timer < 2 ^ cfg.timerWidth) :
    (servicePulse cfg now p).timer < 2 ^ cfg.timerWidth := by
  cases ht : cfg.timing with
  | deadline => rwa [servicePulse_deadline_timer ht]
  | countdown =>
    cases ha : p.active with
    | false => rwa [servicePulse_idle cfg now ha]
    | true => rw [servicePulse_countdown_active ht now ha]; exact wrap_lt _ _

/-! ### The counter range of variant B -/

/-- The range of R172 for one channel. -/
def InCountdownRange (cfg : Config) (p : Pulse) : Prop :=
  -(cfg.tickMs : Int) ≤ signed cfg.timerWidth p.timer ∧ signed cfg.timerWidth p.timer ≤ (cfg.durMax : Int) ∧
    (p.active = true → 0 ≤ signed cfg.timerWidth p.timer)

theorem countdownInv_iff {s : State} :
    CountdownInv s ↔ (s.config.timing = .countdown → ∀ c, InCountdownRange s.config (s.pulse c)) := Iff.rfl

theorem inCountdownRange_reset (cfg : Config) : InCountdownRange cfg Pulse.reset := by
  have h0 : signed cfg.timerWidth Pulse.reset.timer = 0 := signed_of_lt (by simp [Pulse.reset])
  rw [InCountdownRange, h0]
  omega

theorem inCountdownRange_requestPulse (hl : cfg.legal = true) (ht : cfg.timing = .countdown) (now : Nat) {d : Nat}
    (hd : d ≤ cfg.durMax) : InCountdownRange cfg (requestPulse cfg now d) := by
  rw [requestPulse_countdown ht, InCountdownRange, signed_duration hl ht hd]
  omega

theorem inCountdownRange_servicePulse (hl : cfg.legal = true) (ht : cfg.timing = .countdown) (now : Nat) {p : Pulse}
    (hp : InCountdownRange cfg p) : InCountdownRange cfg (servicePulse cfg now p) := by
  cases ha : p.active with
  | false => rwa [servicePulse_idle cfg now ha]
  | true =>
    obtain ⟨-, hmax, hnonneg⟩ := hp
    obtain ⟨htimer, hactive⟩ := servicePulse_countdown_signed hl ht now ha (hnonneg ha) hmax
    have h0 := hnonneg ha
    rw [InCountdownRange, hactive, htimer]
    omega

/-! ### Every completed instruction keeps them -/

variable {i : Instr} {s t : State}

theorem exec_keeps_now_lt (hs : s.now < 2 ^ s.config.timeWidth) (h : exec i s = .next t) :
    t.now < 2 ^ t.config.timeWidth := by
  rw [exec_config h]
  obtain ⟨-, -, he⟩ := exec_next h
  cases he with
  | now hv => exact hv
  | service => rwa [service_now]
  | _ => exact hs

theorem exec_keeps_registersFit (hs : RegistersFit s) (h : exec i s = .next t) : RegistersFit t := by
  obtain ⟨hnow, htimer⟩ := hs
  have hl := (exec_next h).1
  refine ⟨exec_keeps_now_lt hnow h, fun c => ?_⟩
  rw [exec_config h]
  have hchange := exec_channelChange h c
  generalize t.pulse c = p at hchange
  cases hchange with
  | kept => exact htimer c
  | request _ hd => exact requestPulse_timer_lt hl s.now hd
  | service => exact servicePulse_timer_lt s.now (htimer c)
  | reset => exact Nat.two_pow_pos _

theorem exec_keeps_countdownInv (hs : CountdownInv s) (h : exec i s = .next t) : CountdownInv t := by
  have hl := (exec_next h).1
  rw [countdownInv_iff] at hs ⊢
  rw [exec_config h]
  intro ht c
  have hchange := exec_channelChange h c
  generalize t.pulse c = p at hchange
  cases hchange with
  | kept => exact hs ht c
  | request _ hd => exact inCountdownRange_requestPulse hl ht s.now hd
  | service => exact inCountdownRange_servicePulse hl ht s.now (hs ht c)
  | reset => exact inCountdownRange_reset s.config

/-! ### The framer -/

theorem framerInv_of_idle (hf : s.fstate = .idle) (hb : s.buf = []) : FramerInv s := by
  refine ⟨fun _ => ?_, fun hc => ?_, ?_⟩
  · rw [State.len, hb, List.length_nil]
  · cases hf.symm.trans hc
  · rw [hb]; exact nofun

/-- A framer that holds `':'` and body bytes, not more than fit. -/
theorem framerInv_of_collecting {held : List Byte} (hf : s.fstate = .collecting) (hb : s.buf = Ascii.colon :: held)
    (hlen : held.length + 1 ≤ s.config.maxCmdLen) (hheld : ∀ b ∈ held, b ≠ Ascii.ack ∧ b ≠ Ascii.hash) :
    FramerInv s := by
  refine ⟨fun hi => ?_, fun _ => ⟨?_, ?_, ?_⟩, ?_⟩
  · cases hf.symm.trans hi
  · simp [State.len, hb]
  · simpa [State.len, hb] using hlen
  · rw [memRead, hb]; rfl
  · rw [hb]; exact List.forall_mem_cons.mpr ⟨by decide, hheld⟩

theorem FramerInv.buf_of_collecting (h : FramerInv s) (hf : s.fstate = .collecting) :
    ∃ held, s.buf = Ascii.colon :: held := by
  obtain ⟨-, hcol, -⟩ := h
  obtain ⟨-, -, hhead⟩ := hcol hf
  exact List.head?_eq_some_iff.mp (List.head?_eq_getElem?.trans hhead)

/-- The invariant speaks of the configuration, FSTATE and BUF only. -/
theorem FramerInv.congr (h : FramerInv s) (hc : t.config = s.config) (hf : t.fstate = s.fstate) (hb : t.buf = s.buf) :
    FramerInv t := by
  simpa only [FramerInv, State.len, memRead, hc, hf, hb] using h

theorem exec_keeps_framerInv (hs : FramerInv s) (h : exec i s = .next t) : FramerInv t := by
  have hconfig := exec_config h
  obtain ⟨hl, -, he⟩ := exec_next h
  cases he with
  | start hf =>
    have hbuf : s.buf = [] := List.eq_nil_of_length_eq_zero (hs.1 hf)
    have h5 := Config.five_le_maxCmdLen hl
    exact framerInv_of_collecting (held := []) rfl (by simp [hbuf]) (by simp; omega) nofun
  | @append b hf hlen ha hh =>
    obtain ⟨held, hbuf⟩ := hs.buf_of_collecting hf
    refine framerInv_of_collecting (held := held ++ [b]) hf (by simp [hbuf]) ?_ ?_
    · simpa [State.len, hbuf] using hlen
    · intro x hx
      obtain hx | hx := List.mem_append.mp hx
      · exact hs.2.2 x (hbuf ▸ List.mem_cons_of_mem _ hx)
      · obtain rfl := List.mem_singleton.mp hx
        exact ⟨ha, hh⟩
  | overflow | endPass | endGuide | reset => exact framerInv_of_idle rfl rfl
  | ack | discard | guide | pass | reply | request | service | now => exact hs.congr hconfig (by simp) (by simp)

/-! ### The reset state -/

theorem safe_resetFor {now : Nat} (hl : cfg.legal = true) (hnow : now < 2 ^ cfg.timeWidth) (pending : List Arrival) :
    Safe (State.resetFor cfg now pending) where
  legal := hl
  framer := framerInv_of_idle rfl rfl
  registers := ⟨hnow, fun c => by
    rw [State.pulse, State.resetFor, PulseArray.reset_get]
    exact Nat.two_pow_pos _⟩
  countdown := countdownInv_iff.mpr fun _ c => by
    rw [State.pulse, State.resetFor, PulseArray.reset_get]
    exact inCountdownRange_reset cfg

end Sys2Proof.Machine

open Sys2Proof Sys2Proof.Machine

/-- Settles O50: the framer's rows keep the form of FSTATE and BUF, the rest leave both. -/
theorem framerInvariantIsKept : Obligations.FramerInvariantIsKept :=
  fun _ _ => step_keeps (fun _ _ _ hs => hs) fun _ _ _ => exec_keeps_framerInv

/-- Settles O51: a timer is written by a request or a service, and NOW by a NOW change, each within its width. -/
theorem registerWidthsAreKept : Obligations.RegisterWidthsAreKept :=
  fun _ _ => step_keeps (fun _ _ _ hs => hs) fun _ _ _ => exec_keeps_registersFit

/-- Settles O52: channel by channel, for what an instruction can leave of it. -/
theorem countdownRangeIsKept : Obligations.CountdownRangeIsKept :=
  fun _ _ => step_keeps (fun _ _ _ hs => hs) fun _ _ _ => exec_keeps_countdownInv

/-- Settles O45: the values are those of `State.resetFor`, which is safe in every legal configuration. -/
theorem resetStateHasTheResetValuesAndIsSafe : Obligations.ResetStateHasTheResetValuesAndIsSafe := by
  have hpulse (c : Channel) : State.reset.pulse c = ⟨false, 0⟩ := PulseArray.reset_get c
  refine ⟨⟨rfl, rfl, hpulse, fun c => ?_, rfl, rfl⟩, safe_resetFor (by decide) (by decide) [], ?_⟩
  · rw [State.st4, hpulse]; rfl
  · exact fun cfg now pending hl hnow => safe_resetFor hl hnow pending
end

section
/-! SUPPORT. The numerals of 30_encoding.md R79, in the statements' terms. -/

namespace Sys2Proof.Machine

open Sys2Proof.Spec

theorem isDigit_iff {b : Byte} : Ascii.isDigit b = true ↔ Digit b := by
  simp only [Ascii.isDigit, Bool.and_eq_true, decide_eq_true_eq, Digit]

theorem isSpace_iff {b : Byte} : Ascii.isSpace b = true ↔ Space b := by
  simp only [Ascii.isSpace, Bool.or_eq_true, beq_iff_eq, Space, or_assoc]

theorem decimalSum_cons (b : Byte) (ds : List Byte) :
    decimalSum (b :: ds) = (b.toNat - 0x30) * 10 ^ ds.length + decimalSum ds := by
  simp only [decimalSum, List.length_cons, Fin.sum_univ_succ, Nat.add_sub_cancel]
  congr 1
  refine Finset.sum_congr rfl fun i _ => ?_
  simp only [Fin.val_succ]
  congr 2
  omega

/-- Reading digits one by one is summing them by their places. -/
theorem foldl_decimal (ds : List Byte) (acc : Nat) :
    ds.foldl (fun acc b => acc * 10 + (b.toNat - 0x30)) acc = acc * 10 ^ ds.length + decimalSum ds := by
  induction ds generalizing acc with
  | nil => simp [decimalSum]
  | cons b ds ih => rw [List.foldl_cons, ih, decimalSum_cons, List.length_cons]; ring

theorem decimal_eq_decimalSum (ds : List Byte) : decimal ds = decimalSum ds := by
  rw [decimal, foldl_decimal, Nat.zero_mul, Nat.zero_add]

/-- A string of digits, followed by no digit, is the leading digits. -/
theorem leadingDigits_append {ds rest : List Byte} (hds : ∀ b ∈ ds, Digit b)
    (hrest : ∀ b, rest.head? = some b → ¬ Digit b) : leadingDigits (ds ++ rest) = ds := by
  have hstop : rest.takeWhile Ascii.isDigit = [] := by
    cases rest with
    | nil => rfl
    | cons b rest => exact List.takeWhile_cons_of_neg (mt isDigit_iff.mp (hrest b rfl))
  rw [leadingDigits, List.takeWhile_append_of_pos fun b hb => isDigit_iff.mpr (hds b hb), hstop, List.append_nil]

variable {span ds rest : List Byte} {durMax : Nat}

theorem numeralDigitsOnly_of_digits (h : leadingDigits span = ds) (hne : ds ≠ []) :
    numeralDigitsOnly durMax span =
      if durMax < decimalSum ds then (durMax, some .saturatedDuration) else (decimalSum ds, none) := by
  obtain ⟨b, ds, rfl⟩ := List.exists_cons_of_ne_nil hne
  simp only [numeralDigitsOnly, h, decimal_eq_decimalSum]

theorem numeralDigitsOnly_of_none (h : leadingDigits span = []) :
    numeralDigitsOnly durMax span = (0, some .nonnumericDuration) := by
  simp only [numeralDigitsOnly, h]

/-- A span taken apart as `strtol` does is what the model's two passes, over white space and sign, leave of it. -/
theorem takeSign_of_strtolSpan {sign : Int} (h : StrtolSpan span sign ds) :
    ∃ rest, takeSign (span.dropWhile Ascii.isSpace) = (sign, rest) ∧ leadingDigits rest = ds := by
  obtain ⟨ws, sg, rest, rfl, hws, hsign, hds, hrest⟩ := h
  refine ⟨ds ++ rest, ?_, leadingDigits_append hds hrest⟩
  rw [List.dropWhile_append_of_pos fun b hb => isSpace_iff.mpr (hws b hb)]
  obtain ⟨rfl, rfl, hhead⟩ | ⟨rfl, rfl⟩ | ⟨rfl, rfl⟩ := hsign
  · rw [List.nil_append]
    generalize ds ++ rest = tail at hhead
    cases tail with
    | nil => rfl
    | cons b tail =>
      obtain ⟨hspace, hplus, hminus⟩ := hhead b rfl
      rw [List.dropWhile_cons_of_neg (mt isSpace_iff.mp hspace), takeSign]
      exact (if_neg hplus).trans (if_neg hminus)
  · rfl
  · rfl

theorem numeralCStrtol_of_digits {sign : Int} (ht : takeSign (span.dropWhile Ascii.isSpace) = (sign, rest))
    (h : leadingDigits rest = ds) (hne : ds ≠ []) :
    numeralCStrtol durMax span =
      if sign * (decimalSum ds : Int) < 0 ∨ (durMax : Int) < sign * (decimalSum ds : Int) then none
      else some ((sign * (decimalSum ds : Int)).toNat, none) := by
  obtain ⟨b, ds, rfl⟩ := List.exists_cons_of_ne_nil hne
  simp only [numeralCStrtol, ht, h, decimal_eq_decimalSum]

theorem numeralCStrtol_of_none {sign : Int} (ht : takeSign (span.dropWhile Ascii.isSpace) = (sign, rest))
    (h : leadingDigits rest = []) : numeralCStrtol durMax span = some (0, some .nonnumericDuration) := by
  simp only [numeralCStrtol, ht, h]

end Sys2Proof.Machine
end

section
/-! SUPPORT. A guide instruction is one request of its parsed duration, or the refusal of its numeral
(41_guide_decode.md R133 to R138). -/

namespace Sys2Proof.Machine

open Sys2Proof.Spec

variable {cfg : Config} {s : State} {c : Channel} {digits : List Byte} {d : Nat} {ev : Option ObsEvent}

/-- The request of the statements is the model's rule on the channel. -/
theorem requested_eq (c : Channel) (d : Nat) (s : State) :
    requested c d s = { s with pulses := s.pulses.set c (requestPulse s.config s.now d) } := by
  unfold requested
  cases ht : s.config.timing with
  | deadline => rw [requestPulse_deadline ht]
  | countdown => rw [requestPulse_countdown ht]

theorem request_eq_requested (hd : d ≤ s.config.durMax) : request c d s = requested c d s := by
  rw [request_eq, requested_eq, min_eq_left hd, if_neg (not_lt.mpr hd)]

theorem parseDuration_guideCommand_nil (cfg : Config) (c : Channel) :
    parseDuration cfg (guideCommand c []) = some (cfg.defaultGuideMs, some .defaultDuration) :=
  if_pos (guideCommand_length c []).le

theorem parseDuration_guideCommand (cfg : Config) (c : Channel) (hne : digits ≠ []) :
    parseDuration cfg (guideCommand c digits) = numeral cfg digits := by
  have hlen := List.length_pos_iff.mpr hne
  rw [parseDuration, guideCommand_length, if_neg (by omega), digitSpan_guideCommand]

theorem guide_eq_requested (hl : s.config.legal = true)
    (hp : parseDuration s.config (guideCommand c digits) = some (d, ev)) :
    guide c (guideCommand c digits) s = .next (requested c d (observe ev s)) := by
  have hd : d ≤ (observe ev s).config.durMax := parseDuration_le hl hp
  rw [guide_of_some hp, request_eq_requested hd]

theorem exec_guideInstr (h : GuideReady digits s) :
    exec (guideInstr c digits) s = guide c (guideCommand c digits) s := by
  obtain ⟨hl, hm, hb, hfits⟩ := h
  rw [exec_eq hl (selected_guideInstr c hm (all_isBody_iff.mpr hb) hfits), body_guideInstr]

theorem observe_none (s : State) : observe none s = s := by
  simp [observe]

theorem exec_guideInstr_of_numeral (h : GuideReady digits s) (hne : digits ≠ [])
    (hn : numeral s.config digits = some (d, ev)) :
    exec (guideInstr c digits) s = .next (requested c d (observe ev s)) := by
  rw [exec_guideInstr h, guide_eq_requested h.1 ((parseDuration_guideCommand s.config c hne).trans hn)]

theorem exec_guideInstr_of_refused (h : GuideReady digits s) (hne : digits ≠ []) (hn : numeral s.config digits = none) :
    exec (guideInstr c digits) s = .refused .numeralOutOfRange := by
  rw [exec_guideInstr h, guide_of_none ((parseDuration_guideCommand s.config c hne).trans hn)]

theorem numeral_digitsOnly (hn : cfg.numeralMode = .digitsOnly) :
    numeral cfg digits = some (numeralDigitsOnly cfg.durMax digits) := by
  simp only [numeral, hn]

theorem numeral_cStrtol (hn : cfg.numeralMode = .cStrtol) : numeral cfg digits = numeralCStrtol cfg.durMax digits := by
  simp only [numeral, hn]

end Sys2Proof.Machine

open Sys2Proof Sys2Proof.Machine Sys2Proof.Spec

/-- Settles O23: with no digit span the parsed duration is the default, which is in range. -/
theorem guideWithoutDigitsRequestsTheDefault : Obligations.GuideWithoutDigitsRequestsTheDefault := by
  intro c s h
  rw [exec_guideInstr h, guide_eq_requested h.1 (parseDuration_guideCommand_nil s.config c)]
  rfl

/-- Settles O24: the leading digits are the numeral, and its value is saturated. -/
theorem digitsOnlyNumeralRequestsItsValue : Obligations.DigitsOnlyNumeralRequestsItsValue := by
  intro c s ds rest h hmode hne hds hrest
  have hspan : ds ++ rest ≠ [] := fun h0 => hne (List.append_eq_nil_iff.mp h0).1
  have hnum := numeralDigitsOnly_of_digits (durMax := s.config.durMax) (leadingDigits_append hds hrest) hne
  split
  · next hsat =>
    rw [if_pos hsat] at hnum
    exact exec_guideInstr_of_numeral h hspan ((numeral_digitsOnly hmode).trans (congrArg some hnum))
  · next hsat =>
    rw [if_neg hsat] at hnum
    rw [exec_guideInstr_of_numeral h hspan ((numeral_digitsOnly hmode).trans (congrArg some hnum))]
    rw [observe_none]

/-- Settles O25: there are no leading digits. -/
theorem digitsOnlyNonnumericRequestsZero : Obligations.DigitsOnlyNonnumericRequestsZero := by
  intro c s b rest h hmode hb
  have hnone : leadingDigits (b :: rest) = [] := List.takeWhile_cons_of_neg (mt isDigit_iff.mp hb)
  exact exec_guideInstr_of_numeral h (List.cons_ne_nil b rest)
    ((numeral_digitsOnly hmode).trans (congrArg some (numeralDigitsOnly_of_none hnone)))

/-- Settles O26: white space and sign taken off, the leading digits are the numeral, and its signed value is requested
or out of range. -/
theorem strtolNumeralRequestsItsValueOrIsRefused : Obligations.StrtolNumeralRequestsItsValueOrIsRefused := by
  intro c s span ds sign h hmode hne hspan
  obtain ⟨rest, hsign, hdigits⟩ := takeSign_of_strtolSpan hspan
  refine ⟨?nonnumeric, ?value, ?refused⟩
  case nonnumeric =>
    rintro rfl
    exact exec_guideInstr_of_numeral h hne ((numeral_cStrtol hmode).trans (numeralCStrtol_of_none hsign hdigits))
  case value =>
    intro hds v hv hmax
    have hnum := numeralCStrtol_of_digits (durMax := s.config.durMax) hsign hdigits hds
    rw [hv, if_neg (by omega), Int.toNat_natCast] at hnum
    rw [exec_guideInstr_of_numeral h hne ((numeral_cStrtol hmode).trans hnum)]
    rw [observe_none]
  case refused =>
    intro hds hout
    have hnum := numeralCStrtol_of_digits (durMax := s.config.durMax) hsign hdigits hds
    rw [if_pos hout] at hnum
    exact exec_guideInstr_of_refused h hne ((numeral_cStrtol hmode).trans hnum)

/-- Settles O28: what a COMMAND decodes to is a guide instruction, which requests, or a pass, which emits. -/
theorem dispatchedCommandIsRequestedOrPassed : Obligations.DispatchedCommandIsRequestedOrPassed := by
  intro s t cmd h
  obtain ⟨i, hdec, hx⟩ := perform_next h
  have hl := (exec_next hx).1
  rw [exec_eq_body_of_decode hl hdec] at hx
  obtain ⟨c, digits, hm, rfl, rfl, -, -⟩ | ⟨body, hg, rfl, rfl, -, -⟩ := decode_command_cases hdec
  · rw [body_guideInstr] at hx
    have hfor : GuideFor c (guideCommand c digits) :=
      guideChannel_eq_some_iff_guideFor.mp (guideChannel_guideCommand c digits)
    cases hp : parseDuration s.config (guideCommand c digits) with
    | none => rw [guide_of_none hp] at hx; cases hx
    | some p =>
      obtain ⟨d, ev⟩ := p
      cases (guide_eq_requested hl hp).symm.trans hx
      exact .inl ⟨hm, ⟨c, hfor⟩, c, d, ev.toList, hfor, parseDuration_le hl hp, rfl⟩
  · cases hx
    refine .inr ⟨?_, rfl⟩
    rintro ⟨hm, hguide⟩
    obtain hem | hnone := hg
    · exact absurd (hm.symm.trans hem) (by decide)
    · exact guideChannel_eq_none_iff_not_guide.mp hnone hguide
end

section
/-! SUPPORT. What an instruction reads: from two states of the same configuration, FSTATE and BUF it does the same to
them, the same to OUT and OBS, and the same to each channel they agree on (42_pulse_engine.md R177, 40_framer.md
R108). -/

namespace Sys2Proof.Machine

variable {i : Instr} {s s' t t' : State}

/-- An effect behind the guard is what the instruction answers: the converse of `exec_next`. -/
theorem exec_of_effect (hl : s.config.legal = true) (hs : selected s.context i = true) (he : Effect s i t) :
    exec i s = .next t := by
  rw [exec_eq hl hs]
  cases he with
  | endPass _ _ hg => exact dispatch_of_noGuide (s := clearFramer s) hg
  | endGuide _ _ hm hg hp =>
    exact (dispatch_of_guideChannel (s := clearFramer s) hm hg).trans (guide_of_some (s := clearFramer s) hp)
  | guide _ hp => rw [body_guideInstr, guide_of_some hp]
  | ack | start | discard | overflow | append | pass | reply | request | service | reset | now => rfl

/-- The two states look the same to the decoder and to the framer. -/
structure SameReads (s s' : State) : Prop where
  config : s'.config = s.config
  fstate : s'.fstate = s.fstate
  buf : s'.buf = s.buf

theorem SameReads.context (h : SameReads s s') : s'.context = s.context := by
  simp only [State.context, State.len, h.config, h.fstate, h.buf]

/-- What was done to s to get t was done to s' to get t'. -/
structure Echo (s s' t t' : State) : Prop extends SameReads t t' where
  now : s'.now = s.now → t'.now = t.now
  pulse : ∀ c, s'.now = s.now → s'.pulse c = s.pulse c → t'.pulse c = t.pulse c
  out : ∃ o, t.out = s.out ++ o ∧ t'.out = s'.out ++ o
  obs : s'.obs = s.obs → t'.obs = t.obs

theorem Echo.of_sameReads (h : SameReads s s') : Echo s s' s s' where
  toSameReads := h
  now := id
  pulse := fun _ _ h => h
  out := ⟨[], by simp⟩
  obs := id

theorem Echo.append (h : Echo s s' t t') (b : Byte) : Echo s s' (append b t) (append b t') :=
  { h with buf := by simp [h.buf] }

theorem Echo.clearFramer (h : Echo s s' t t') : Echo s s' (clearFramer t) (clearFramer t') :=
  { h with fstate := rfl, buf := rfl }

theorem Echo.emit (h : Echo s s' t t') (e : OutEvent) : Echo s s' (emit e t) (emit e t') :=
  { h with
    out := by
      obtain ⟨o, ht, ht'⟩ := h.out
      exact ⟨o ++ [e], by simp [ht], by simp [ht']⟩ }

theorem Echo.observe (h : Echo s s' t t') (e : Option ObsEvent) : Echo s s' (observe e t) (observe e t') :=
  { h with obs := fun ho => by simp [h.obs ho] }

theorem Echo.request (h : Echo s s' t t') (c : Channel) (d : Nat) : Echo s s' (request c d t) (request c d t') :=
  { h with
    pulse := fun c' hn hp => by rw [request_pulse, request_pulse, h.config, h.now hn, h.pulse c' hn hp]
    obs := fun ho => by rw [request_obs, request_obs, h.config, h.obs ho] }

theorem Echo.service (h : Echo s s' t t') : Echo s s' (service Channel.all t) (service Channel.all t') where
  config := by simp [h.config]
  fstate := by simp [h.fstate]
  buf := by simp [h.buf]
  now := by simpa using h.now
  pulse := fun c hn hp => by rw [service_all_pulse, service_all_pulse, h.config, h.now hn, h.pulse c hn hp]
  out := by simpa using h.out
  obs := by simpa using h.obs

/-- Every effect but a reset's, which empties OUT and OBS, is echoed. -/
theorem Effect.echo (hr : SameReads s s') (hi : i ≠ .reset) (he : Effect s i t) :
    ∃ t', Effect s' i t' ∧ Echo s s' t t' := by
  have h0 := Echo.of_sameReads hr
  have hlen : s'.len = s.len := congrArg List.length hr.buf
  cases he with
  | ack => exact ⟨_, .ack, h0.emit _⟩
  | start hf =>
    exact ⟨_, .start (hr.fstate.trans hf), Echo.append (t := { s with fstate := .collecting })
      (t' := { s' with fstate := .collecting }) { h0 with fstate := rfl } _⟩
  | discard hf => exact ⟨_, .discard (hr.fstate.trans hf), h0⟩
  | overflow hf hl =>
    exact ⟨_, .overflow (hr.fstate.trans hf) (by rwa [hlen, hr.config]), h0.clearFramer.observe _⟩
  | endPass hf hl hg =>
    rw [← hr.buf]
    exact ⟨_, .endPass (hr.fstate.trans hf) (by rwa [hlen, hr.config]) (by rwa [hr.buf, hr.config]),
      h0.clearFramer.emit _⟩
  | endGuide hf hl hm hg hp =>
    exact ⟨_, .endGuide (hr.fstate.trans hf) (by rwa [hlen, hr.config]) (by rwa [hr.config]) (by rwa [hr.buf])
      (by rwa [hr.buf, hr.config]), (h0.clearFramer.observe _).request _ _⟩
  | append hf hl ha hh =>
    exact ⟨_, .append (hr.fstate.trans hf) (by rwa [hlen, hr.config]) ha hh, h0.append _⟩
  | guide hm hp =>
    exact ⟨_, .guide (by rwa [hr.config]) (by rwa [hr.config]), (h0.observe _).request _ _⟩
  | pass hg => exact ⟨_, .pass (by rwa [hr.config]), h0.emit _⟩
  | reply => exact ⟨_, .reply, h0.emit _⟩
  | request => exact ⟨_, .request, h0.request _ _⟩
  | service => exact ⟨_, .service, h0.service⟩
  | reset => exact absurd rfl hi
  | now hv => exact ⟨_, .now (by rwa [hr.config]), { h0 with now := fun _ => rfl, pulse := fun _ _ h => h }⟩

theorem exec_echo (hr : SameReads s s') (hi : i ≠ .reset) (h : exec i s = .next t) :
    ∃ t', exec i s' = .next t' ∧ Echo s s' t t' := by
  obtain ⟨hl, hs, he⟩ := exec_next h
  obtain ⟨t', he', hecho⟩ := he.echo hr hi
  exact ⟨t', exec_of_effect (by rwa [hr.config]) (by rwa [hr.context]) he', hecho⟩

end Sys2Proof.Machine
end

section
/-! SUPPORT. One channel under transactions for the others (42_pulse_engine.md R177). -/

namespace Sys2Proof.Machine

open Sys2Proof.Spec

variable {c : Channel} {s s' t : State} {tr : Transaction}

theorem sameReads_of_sameFor (h : SameFor c s s') : SameReads s s' :=
  ⟨h.config.symm, h.fstate.symm, h.buf.symm⟩

/-- The same transaction from two states that agree on a channel leaves two that agree on it. -/
theorem perform_sameFor (h : SameFor c s s') (hp : perform tr s = .next t) :
    ∃ t', perform tr s' = .next t' ∧ SameFor c t t' := by
  have hr := sameReads_of_sameFor h
  obtain ⟨i, hdec, hx⟩ := perform_next hp
  have hdec' : decode s'.context tr = .ok i := by rwa [hr.context]
  rw [perform_of_decode hdec']
  by_cases hi : i = .reset
  · subst hi
    have hl := (exec_next hx).1
    have hreset : exec .reset s = .next (resetBlock s) := exec_eq hl rfl
    cases hreset.symm.trans hx
    exact ⟨resetBlock s', exec_eq (by rwa [hr.config]) rfl, h.config, rfl, rfl, h.now, rfl⟩
  · obtain ⟨t', hx', he⟩ := exec_echo hr hi hx
    exact ⟨t', hx', he.config.symm, he.fstate.symm, he.buf.symm, (he.now h.now.symm).symm,
      (he.pulse c h.now.symm h.pulse.symm).symm⟩

theorem sameFor_requested {d : Nat} {ev : List ObsEvent} {c' : Channel} (hne : c ≠ c') :
    SameFor c (requested c' d { s with obs := s.obs ++ ev }) s := by
  rw [requested_eq]
  exact ⟨rfl, rfl, rfl, rfl, s.pulses.get_set_of_ne _ hne⟩

theorem guideFor_unique {c c' : Channel} {cmd : List Byte} (h : GuideFor c cmd) (h' : GuideFor c' cmd) : c = c' :=
  Option.some_inj.mp
    ((guideChannel_eq_some_iff_guideFor.mpr h).symm.trans (guideChannel_eq_some_iff_guideFor.mpr h'))

/-- A request for another channel leaves the channel, and all that says what happens to it. -/
theorem sameFor_of_not_concerns (hc : concerns s.config.mode c tr = false) (hp : perform tr s = .next t) :
    SameFor c t s := by
  cases tr with
  | byte | ackEvent | service | now | reset => cases hc
  | req dir dur =>
    have hne : Channel.ofCode dir ≠ c := of_decide_eq_false hc
    obtain rfl := eq_request_of_exec_pgRequest (c := Channel.ofCode dir) (dur := dur) (s := s) (t := t) hp
    exact ⟨rfl, rfl, rfl, rfl, by rw [request_pulse, if_neg hne.symm]⟩
  | command cmd =>
    have hother : s.config.mode = .fs2adapter ∧ ∃ d ∈ Channel.all, d ≠ c ∧ GuideFor d cmd :=
      not_not.mp (of_decide_eq_false hc)
    obtain ⟨hm, d, -, hne, hd⟩ := hother
    obtain ⟨-, -, c', dur, ev, hc', -, rfl⟩ | ⟨hno, -⟩ := dispatchedCommandIsRequestedOrPassed s t cmd hp
    · exact sameFor_requested (guideFor_unique hc' hd ▸ hne.symm)
    · exact absurd ⟨hm, d, hd⟩ hno

end Sys2Proof.Machine

open Sys2Proof Sys2Proof.Machine Sys2Proof.Spec

/-- Settles O41, by induction on the sequence: what is taken out left the channel, what stays runs the same. -/
theorem requestsOnOtherChannelsDoNotTouchAChannel : Obligations.RequestsOnOtherChannelsDoNotTouchAChannel := by
  intro c ts
  induction ts with
  | nil => rintro s s' t h hrun; cases hrun; exact ⟨s', rfl, h⟩
  | cons tr ts ih =>
    intro s s' t h hrun
    obtain ⟨s1, hp, hrest⟩ := andThen_next_iff.mp hrun
    have hmode : s1.config.mode = s.config.mode := by rw [perform_config hp]
    cases hc : concerns s.config.mode c tr with
    | false =>
      have hkept := sameFor_of_not_concerns hc hp
      have h1 : SameFor c s1 s' := ⟨hkept.config.trans h.config, hkept.fstate.trans h.fstate, hkept.buf.trans h.buf,
        hkept.now.trans h.now, hkept.pulse.trans h.pulse⟩
      rw [List.filter_cons_of_neg (by simp [hc]), ← hmode]
      exact ih s1 s' t h1 hrest
    | true =>
      obtain ⟨s1', hp', h1⟩ := perform_sameFor h hp
      obtain ⟨t', hrun', ht⟩ := ih s1 s1' t h1 hrest
      rw [hmode] at hrun'
      exact ⟨t', by rw [List.filter_cons_of_pos hc, performAll_cons, hp', andThen_next, hrun'], ht⟩
end

section
/-! SUPPORT. Sequences of bytes (40_framer.md R108): the equations of `feed`, and what a byte cannot decode to. -/

namespace Sys2Proof.Machine

open Sys2Proof.Spec

variable {s s' t : State} {b : Byte} {i : Instr}

@[simp] theorem feed_nil (s : State) : feed [] s = .next s := rfl

theorem feed_cons (b : Byte) (bytes : List Byte) (s : State) :
    feed (b :: bytes) s = andThen (perform (.byte b) s) (feed bytes) := rfl

theorem feed_append (xs ys : List Byte) (s : State) : feed (xs ++ ys) s = andThen (feed xs s) (feed ys) := by
  unfold feed
  rw [List.map_append, performAll_append]

/-- What every transaction of a sequence keeps, the sequence keeps. -/
theorem performAll_keeps {P : State → Prop} {ts : List Transaction}
    (hstep : ∀ tr ∈ ts, ∀ s t, P s → perform tr s = .next t → P t) (hs : P s) (h : performAll ts s = .next t) :
    P t := by
  induction ts generalizing s with
  | nil => cases h; exact hs
  | cons tr ts ih =>
    obtain ⟨s1, hp, hrest⟩ := andThen_next_iff.mp h
    obtain ⟨hhead, htail⟩ := List.forall_mem_cons.mp hstep
    exact ih htail (hhead s s1 hs hp) hrest

theorem feed_keeps {P : State → Prop} {bytes : List Byte}
    (hstep : ∀ b s t, P s → perform (.byte b) s = .next t → P t) (hs : P s) (h : feed bytes s = .next t) : P t := by
  refine performAll_keeps (fun tr htr => ?_) hs h
  obtain ⟨b, -, rfl⟩ := List.mem_map.mp htr
  exact hstep b

/-- The instruction a completed byte decoded to is encoded as that byte, so it is one of the framer's rows. -/
theorem perform_byte_next (h : perform (.byte b) s = .next t) : ∃ i, encode i = .byte b ∧ exec i s = .next t := by
  obtain ⟨i, hdec, hx⟩ := perform_next h
  exact ⟨i, encode_of_decode hdec, hx⟩

theorem perform_byte_echo (hr : SameReads s s') (h : perform (.byte b) s = .next t) :
    ∃ t', perform (.byte b) s' = .next t' ∧ Echo s s' t t' := by
  obtain ⟨i, hdec, hx⟩ := perform_next h
  have hi : i ≠ .reset := by
    rintro rfl
    cases encode_of_decode hdec
  obtain ⟨t', hx', hecho⟩ := exec_echo hr hi hx
  exact ⟨t', (perform_of_decode (by rwa [hr.context])).trans hx', hecho⟩

/-- With MODE = EMULATOR no framer row makes a request. -/
theorem not_requestsOn_of_emulator (hm : s.config.mode = .emulator) (hb : encode i = .byte b) (c : Channel) :
    ¬ RequestsOn s i c := by
  rintro (⟨dur, rfl⟩ | ⟨digits, rfl⟩ | ⟨-, hm', -⟩)
  · cases hb
  · cases (encode_guideInstr c digits).symm.trans hb
  · cases hm.symm.trans hm'

theorem perform_byte_keeps_pulses (hm : s.config.mode = .emulator) (h : perform (.byte b) s = .next t) :
    t.pulses = s.pulses := by
  obtain ⟨i, hb, hx⟩ := perform_byte_next h
  refine PulseArray.ext_get fun c => ?_
  have hchange := exec_channelChange hx c
  show t.pulse c = s.pulse c
  generalize t.pulse c = p at hchange
  cases hchange with
  | kept => rfl
  | request hreq => exact absurd hreq (not_requestsOn_of_emulator hm hb c)
  | service hi | reset hi => subst hi; cases hb

end Sys2Proof.Machine

open Sys2Proof Sys2Proof.Machine

/-- Settles O29: with MODE = EMULATOR every byte keeps every channel, and MODE. -/
theorem emulatorBytesNeverChangePulses : Obligations.EmulatorBytesNeverChangePulses := by
  intro s t bytes hm h
  have hkept : t.config.mode = .emulator ∧ t.pulses = s.pulses := by
    refine feed_keeps (P := fun x => x.config.mode = .emulator ∧ x.pulses = s.pulses) ?_ ⟨hm, rfl⟩ h
    rintro b x y ⟨hx, hpulses⟩ hp
    exact ⟨by rwa [perform_config hp], (perform_byte_keeps_pulses hx hp).trans hpulses⟩
  exact hkept.2
end

section
/-! SUPPORT. What an undisturbed byte stream does: a command that fits, one that does not, and the bytes after it
(30_encoding.md R73, 40_framer.md R104 to R106, R110). -/

namespace Sys2Proof.Machine

open Sys2Proof.Spec

variable {s : State} {bytes body : List Byte}

/-- Body bytes that fit are held. -/
theorem feed_of_collecting (hl : s.config.legal = true) (hf : s.fstate = .collecting) (hb : ∀ b ∈ bytes, BodyByte b)
    (hlen : s.len + bytes.length ≤ s.config.maxCmdLen) : feed bytes s = .next { s with buf := s.buf ++ bytes } := by
  induction bytes generalizing s with
  | nil => rw [List.append_nil]; rfl
  | cons b bytes ih =>
    obtain ⟨⟨ha, hh⟩, hrest⟩ := List.forall_mem_cons.mp hb
    rw [List.length_cons] at hlen
    have hlen' : (append b s).len = s.len + 1 := by simp [State.len]
    rw [feed_cons, (exec_and_perform_dataByte hl hf (by omega) ha hh).2, andThen_next,
      ih (s := append b s) hl hf hrest (by rw [hlen', append_config]; omega)]
    simp [append]

/-- A command's bytes up to its end marker, from Idle. -/
theorem feed_start (hl : s.config.legal = true) (hf : s.fstate = .idle) (hbuf : s.buf = [])
    (hb : ∀ b ∈ body, BodyByte b) (hlen : body.length + 1 ≤ s.config.maxCmdLen) :
    feed (Ascii.colon :: body) s = .next { s with fstate := .collecting, buf := Ascii.colon :: body } := by
  have h0 : s.len = 0 := by rw [State.len, hbuf, List.length_nil]
  have hstart : perform (.byte Ascii.colon) s = .next { s with fstate := .collecting, buf := [0x3A] } :=
    (startMarkerOpensACommand s hl hf h0).2
  rw [feed_cons, hstart, andThen_next,
    feed_of_collecting (s := { s with fstate := .collecting, buf := [0x3A] }) hl rfl hb
      (by simp only [State.len, List.length_singleton]; omega)]
  rfl

/-- In Idle bytes other than `':'` leave only the replies to the probes among them. -/
theorem feed_of_idle (hl : s.config.legal = true) (hf : s.fstate = .idle) (hc : ∀ b ∈ bytes, b ≠ Ascii.colon) :
    feed bytes s = .next { s with out := s.out ++ List.replicate (bytes.count Ascii.ack) (.reply [0x47]) } := by
  induction bytes generalizing s with
  | nil => simp
  | cons b bytes ih =>
    obtain ⟨hb, hrest⟩ := List.forall_mem_cons.mp hc
    rw [feed_cons]
    by_cases ha : b = Ascii.ack
    · subst ha
      have hprobe : perform (.byte Ascii.ack) s = .next { s with out := s.out ++ [.reply [0x47]] } :=
        (ackProbeRepliesGAndChangesNothingElse s hl).1
      rw [hprobe, andThen_next, ih (s := { s with out := s.out ++ [.reply [0x47]] }) hl hf hrest, List.count_cons_self,
        List.replicate_succ]
      simp
    · rw [(otherBytesInIdleAreDiscarded s b hl hf ha hb).2, andThen_next, ih hl hf hrest,
        List.count_cons_of_ne ha]

/-- The byte of a command's rest that meets the full buffer, and what follows it. -/
theorem exists_overflowing_byte {n : Nat} (hb : ∀ b ∈ body, BodyByte b)
    (hc : ∀ b ∈ body.drop (n + 1), b ≠ Ascii.colon) :
    ∃ b rest, body.drop n ++ [Ascii.hash] = b :: rest ∧ b ≠ Ascii.ack ∧ (∀ x ∈ rest, x ≠ Ascii.colon) ∧
      rest.count Ascii.ack = 0 := by
  have hdrop : ∀ x ∈ body.drop n, x ≠ Ascii.ack := fun x hx => (hb x (List.mem_of_mem_drop hx)).1
  cases h : body.drop n with
  | nil => exact ⟨Ascii.hash, [], rfl, by decide, nofun, rfl⟩
  | cons b rest =>
    have hrest : body.drop (n + 1) = rest := by rw [← List.tail_drop, h, List.tail_cons]
    rw [h] at hdrop
    obtain ⟨hb0, hb1⟩ := List.forall_mem_cons.mp hdrop
    rw [hrest] at hc
    refine ⟨b, rest ++ [Ascii.hash], rfl, hb0, ?_, ?_⟩
    · exact List.forall_mem_append.mpr ⟨hc, List.forall_mem_singleton.mpr (by decide)⟩
    · refine List.count_eq_zero.mpr fun hmem => ?_
      obtain hmem | hmem := List.mem_append.mp hmem
      · exact hb1 _ hmem rfl
      · exact absurd (List.mem_singleton.mp hmem) (by decide)

end Sys2Proof.Machine

open Sys2Proof Sys2Proof.Machine Sys2Proof.Spec

/-- Settles O54: the bytes before the end marker are held, and the end marker dispatches the whole in the state in which
the framer is Idle and empty again, the one before the first byte. -/
theorem framedCommandRunsAsOneOperation : Obligations.FramedCommandRunsAsOneOperation := by
  intro s body hl hf hbuf hb hlen
  have hinv : FramerInv { s with fstate := .collecting, buf := Ascii.colon :: body } :=
    framerInv_of_collecting (held := body) rfl rfl (show body.length + 1 ≤ s.config.maxCmdLen by omega) hb
  obtain ⟨hend, i, hdec, hexec⟩ := endMarkerDispatchesTheWholeCommand
    { s with fstate := .collecting, buf := Ascii.colon :: body } hl hinv rfl
    (show body.length + 1 < s.config.maxCmdLen by omega)
  have hback : ({ s with fstate := .idle, buf := [] } : State) = s := by rw [← hf, ← hbuf]
  refine ⟨i, hdec, ?_⟩
  calc feed (Ascii.colon :: (body ++ [Ascii.hash])) s
    _ = andThen (feed (Ascii.colon :: body) s) (feed [Ascii.hash]) := feed_append (Ascii.colon :: body) [Ascii.hash] s
    _ = feed [Ascii.hash] { s with fstate := .collecting, buf := Ascii.colon :: body } := by
      rw [feed_start hl hf hbuf hb (by omega), andThen_next]
    _ = perform (.byte Ascii.hash) { s with fstate := .collecting, buf := Ascii.colon :: body } :=
      performAll_singleton _ _
    _ = exec i { s with fstate := .idle, buf := [] } := (perform_of_decode hend).trans hexec
    _ = exec i s := by rw [hback]

/-- Settles O56: the byte drops the command, and in Idle the bytes after it are discarded or answered. -/
theorem nothingLeaksAfterAnOverflow : Obligations.NothingLeaksAfterAnOverflow := by
  intro s b bytes hl hf hlen ha hc
  rw [feed_cons, (overflowDropsTheCommand s b hl hf hlen ha).2, andThen_next]
  exact feed_of_idle (s := { s with fstate := .idle, buf := [], obs := s.obs ++ [.overflowDrop] }) hl rfl hc

/-- Settles O55: the command fills the buffer, and from the byte that meets it full on nothing leaks; no byte of a
command is a probe. -/
theorem overlongCommandIsDroppedWhole : Obligations.OverlongCommandIsDroppedWhole := by
  intro s body hl hf hbuf hb hlong hc
  have h5 := Config.five_le_maxCmdLen hl
  obtain ⟨n, hn⟩ : ∃ n, s.config.maxCmdLen = n + 1 := ⟨s.config.maxCmdLen - 1, by omega⟩
  rw [hn] at hc hlong
  have hheld : (body.take n).length = n := List.length_take_of_le (by omega)
  have hfull : (Ascii.colon :: body.take n).length = s.config.maxCmdLen := by rw [List.length_cons, hheld, hn]
  obtain ⟨b, rest, hsplit, ha, hrest, hprobes⟩ := exists_overflowing_byte hb hc
  have hbytes : Ascii.colon :: (body ++ [Ascii.hash]) = (Ascii.colon :: body.take n) ++ (b :: rest) := by
    rw [← hsplit, List.cons_append, ← List.append_assoc, List.take_append_drop]
  have hstart := feed_start (body := body.take n) hl hf hbuf (fun x hx => hb x (List.mem_of_mem_take hx)) (by omega)
  calc feed (Ascii.colon :: (body ++ [Ascii.hash])) s
    _ = feed (b :: rest) { s with fstate := .collecting, buf := Ascii.colon :: body.take n } := by
      rw [hbytes, feed_append, hstart, andThen_next]
    _ = .next { s with
          fstate := .idle
          buf := []
          obs := s.obs ++ [.overflowDrop]
          out := s.out ++ List.replicate (rest.count 0x06) (.reply [0x47]) } :=
      nothingLeaksAfterAnOverflow { s with fstate := .collecting, buf := Ascii.colon :: body.take n } b rest hl rfl
        hfull ha hrest
    _ = .next { s with obs := s.obs ++ [.overflowDrop] } := by
      rw [show rest.count 0x06 = 0 from hprobes, List.replicate_zero, List.append_nil, ← hf, ← hbuf]
end

section
/-! SUPPORT. The probes of a byte stream (40_framer.md R112). -/

namespace Sys2Proof.Machine

open Sys2Proof.Spec

variable {s s' t : State} {b : Byte} {n : Nat}

/-- s is s' but for OUT, where it has the same commands in the same order and n more replies to probes. -/
structure AheadByReplies (n : Nat) (s s' : State) : Prop where
  but_out : s = { s' with out := s.out }
  commands : commandsOf s.out = commandsOf s'.out
  replies : s.out.count (.reply [0x47]) = s'.out.count (.reply [0x47]) + n

theorem AheadByReplies.sameReads (h : AheadByReplies n s s') : SameReads s s' := by
  rw [h.but_out]
  exact ⟨rfl, rfl, rfl⟩

/-- A probe to s alone puts it one reply further ahead. -/
theorem AheadByReplies.ack (h : AheadByReplies n s s') (hp : perform (.byte Ascii.ack) s = .next t) :
    AheadByReplies (n + 1) t s' := by
  obtain ⟨i, hdec, hx⟩ := perform_next hp
  have hl := (exec_next hx).1
  cases (ackProbeRepliesGAndChangesNothingElse s hl).1.symm.trans hp
  refine ⟨?_, ?_, ?_⟩
  · rw [h.but_out]
  · simpa [commandsOf] using h.commands
  · rw [List.count_append, List.count_singleton_self, h.replies, Nat.add_assoc]

/-- States that an echo does not tell apart but for OUT are the same but for OUT. -/
theorem Echo.but_out {t' : State} (he : Echo s s' t t') (h : s = { s' with out := s.out })
    (hs : t.pending = s.pending ∧ t.draws = s.draws) (hs' : t'.pending = s'.pending ∧ t'.draws = s'.draws) :
    t = { t' with out := t.out } := by
  have hnow := he.now (by rw [h])
  have hobs := he.obs (by rw [h])
  have hpulses : t'.pulses = t.pulses := PulseArray.ext_get fun c => he.pulse c (by rw [h]) (by rw [h]; rfl)
  have hpending : t'.pending = t.pending := by rw [hs'.1, hs.1, h]
  have hdraws : t'.draws = t.draws := by rw [hs'.2, hs.2, h]
  rw [he.config, he.fstate, he.buf, hnow, hobs, hpulses, hpending, hdraws]

/-- The same byte to both keeps the distance. -/
theorem AheadByReplies.byte (h : AheadByReplies n s s') (hp : perform (.byte b) s = .next t) :
    ∃ t', perform (.byte b) s' = .next t' ∧ AheadByReplies n t t' := by
  obtain ⟨t', hp', he⟩ := perform_byte_echo h.sameReads hp
  obtain ⟨i, -, hx⟩ := perform_next hp
  obtain ⟨i', -, hx'⟩ := perform_next hp'
  obtain ⟨o, ho, ho'⟩ := he.out
  refine ⟨t', hp', he.but_out h.but_out (exec_schedule hx) (exec_schedule hx'), ?_, ?_⟩
  · have hc := h.commands
    unfold commandsOf at hc ⊢
    rw [ho, ho', List.filter_append, List.filter_append, hc]
  · rw [ho, ho', List.count_append, List.count_append, h.replies]
    omega

/-- By induction on the stream: a probe is fed to s alone, any other byte to both. -/
theorem AheadByReplies.feed {bytes : List Byte} (h : AheadByReplies n s s') (hrun : Machine.feed bytes s = .next t) :
    ∃ t', Machine.feed (bytes.filter (fun b => decide (b ≠ 0x06))) s' = .next t' ∧
      AheadByReplies (n + bytes.count 0x06) t t' := by
  induction bytes generalizing n s s' with
  | nil => cases hrun; exact ⟨s', rfl, h⟩
  | cons b bytes ih =>
    obtain ⟨s1, hp, hrest⟩ := andThen_next_iff.mp hrun
    by_cases hb : b = 0x06
    · subst hb
      obtain ⟨t', hrun', ht⟩ := ih (h.ack hp) hrest
      refine ⟨t', by rwa [List.filter_cons_of_neg (by simp)], ?_⟩
      rwa [List.count_cons_self, Nat.add_comm (bytes.count 0x06), ← Nat.add_assoc]
    · obtain ⟨s1', hp', h1⟩ := h.byte hp
      obtain ⟨t', hrun', ht⟩ := ih h1 hrest
      refine ⟨t', ?_, by rwa [List.count_cons_of_ne hb]⟩
      rw [List.filter_cons_of_pos (p := fun b => decide (b ≠ 0x06)) (decide_eq_true hb), feed_cons, hp', andThen_next,
        hrun']

end Sys2Proof.Machine

open Sys2Proof Sys2Proof.Machine

/-- Settles O57: each probe puts the run with it one reply ahead of the run without, and nothing else tells the runs
apart. -/
theorem ackProbesAreTransparent : Obligations.AckProbesAreTransparent := by
  intro bytes s t hrun
  have h0 : AheadByReplies 0 s s := ⟨rfl, rfl, rfl⟩
  obtain ⟨u, hu, hbut, hcommands, hreplies⟩ := h0.feed hrun
  rw [Nat.zero_add] at hreplies
  exact ⟨u, hu, hbut, hcommands, hreplies⟩
end

section
/-! SUPPORT. Byte streams in chunks, with transactions of other ports between them
(40_framer.md R108, 10_state.md R35). -/

namespace Sys2Proof.Machine

open Sys2Proof.Spec

variable {s s' t u : State} {tr : Transaction}

/-- The same framing, in the same configuration: what the next byte's framing depends on. -/
structure SameStream (s s' : State) : Prop extends SameReads s s' where
  out : s'.out = s.out

theorem SameStream.refl (s : State) : SameStream s s := ⟨⟨rfl, rfl, rfl⟩, rfl⟩

theorem SameStream.symm (h : SameStream s t) : SameStream t s :=
  ⟨⟨h.config.symm, h.fstate.symm, h.buf.symm⟩, h.out.symm⟩

theorem SameStream.trans (h : SameStream s t) (h' : SameStream t u) : SameStream s u :=
  ⟨⟨h'.config.trans h.config, h'.fstate.trans h.fstate, h'.buf.trans h.buf⟩, h'.out.trans h.out⟩

theorem SameStream.sameFraming (h : SameStream s t) : SameFraming s t := ⟨h.fstate.symm, h.buf.symm, h.out.symm⟩

/-- Bytes keep the framing the same: they complete and frame alike. -/
theorem SameStream.feed {bytes : List Byte} (h : SameStream s s') (hrun : feed bytes s = .next t) :
    ∃ t', Machine.feed bytes s' = .next t' ∧ SameStream t t' := by
  induction bytes generalizing s s' with
  | nil => cases hrun; exact ⟨s', rfl, h⟩
  | cons b bytes ih =>
    obtain ⟨s1, hp, hrest⟩ := andThen_next_iff.mp hrun
    obtain ⟨s1', hp', he⟩ := perform_byte_echo h.toSameReads hp
    obtain ⟨o, ho, ho'⟩ := he.out
    obtain ⟨t', hrun', ht⟩ := ih ⟨he.toSameReads, by rw [ho, ho', h.out]⟩ hrest
    exact ⟨t', by rw [feed_cons, hp', andThen_next, hrun'], ht⟩

/-- A SERVICE, a REQ and a NOW leave the framing as it was. -/
theorem sameStream_of_beside (hb : besideTheStream tr = true) (hp : perform tr s = .next t) : SameStream s t := by
  obtain ⟨i, hdec, hx⟩ := perform_next hp
  have hl := (exec_next hx).1
  cases tr with
  | byte | command | ackEvent | reset => cases hb
  | service =>
    cases (perform_service hl).symm.trans hp
    exact ⟨⟨service_config _ _, service_fstate _ _, service_buf _ _⟩, service_out _ _⟩
  | req dir dur => cases (perform_req hl dir dur).symm.trans hp; exact ⟨⟨rfl, rfl, rfl⟩, rfl⟩
  | now v =>
    simp only [decode] at hdec
    split at hdec
    · next hv => cases (exec_and_perform_now hl hv).2.symm.trans hp; exact ⟨⟨rfl, rfl, rfl⟩, rfl⟩
    · cases hdec

theorem sameStream_of_all_beside {ts : List Transaction} (hb : ∀ tr ∈ ts, besideTheStream tr = true)
    (h : performAll ts s = .next t) : SameStream s t :=
  performAll_keeps (P := SameStream s) (fun tr htr _ _ hx hp => hx.trans (sameStream_of_beside (hb tr htr) hp))
    (SameStream.refl s) h

/-- They complete in every state of a legal configuration, if the NOW values fit. -/
theorem all_beside_complete {ts : List Transaction} (hl : s.config.legal = true)
    (hb : ∀ tr ∈ ts, besideTheStream tr = true) (hnow : ∀ v, Transaction.now v ∈ ts → v < 2 ^ s.config.timeWidth) :
    ∃ t, performAll ts s = .next t := by
  induction ts generalizing s with
  | nil => exact ⟨s, rfl⟩
  | cons tr ts ih =>
    obtain ⟨hhead, htail⟩ := List.forall_mem_cons.mp hb
    obtain ⟨s1, hp⟩ : ∃ s1, perform tr s = .next s1 := by
      cases tr with
      | byte | command | ackEvent | reset => cases hhead
      | service => exact ⟨_, perform_service hl⟩
      | req dir dur => exact ⟨_, perform_req hl dir dur⟩
      | now v => exact ⟨_, (exec_and_perform_now hl (hnow v List.mem_cons_self)).2⟩
    have hconfig := perform_config hp
    obtain ⟨t, hrun⟩ := ih (s := s1) (by rwa [hconfig]) htail
      (by rw [hconfig]; exact fun v hv => hnow v (List.mem_cons_of_mem _ hv))
    exact ⟨t, by rw [performAll_cons, hp, andThen_next, hrun]⟩

theorem performAll_chunked_cons (p : List Byte × List Transaction) (chunks : List (List Byte × List Transaction))
    (s : State) :
    performAll (chunked (p :: chunks)) s =
      andThen (andThen (feed p.1 s) (performAll p.2)) (performAll (chunked chunks)) := by
  rw [chunked, List.flatMap_cons, performAll_append, performAll_append]
  rfl

theorem feed_chunks_cons (p : List Byte × List Transaction) (chunks : List (List Byte × List Transaction)) (s : State) :
    feed ((p :: chunks).flatMap (·.1)) s = andThen (feed p.1 s) (feed (chunks.flatMap (·.1))) := by
  rw [List.flatMap_cons, feed_append]

/-- What the chunks with their transactions do to the framing, the bytes alone do. -/
theorem SameStream.feed_of_chunked {chunks : List (List Byte × List Transaction)}
    (hb : ∀ p ∈ chunks, ∀ x ∈ p.2, besideTheStream x = true) (h : SameStream s s')
    (hrun : performAll (chunked chunks) s = .next t) :
    ∃ u, Machine.feed (chunks.flatMap (·.1)) s' = .next u ∧ SameStream t u := by
  induction chunks generalizing s s' with
  | nil => cases hrun; exact ⟨s', rfl, h⟩
  | cons p chunks ih =>
    obtain ⟨hhead, htail⟩ := List.forall_mem_cons.mp hb
    rw [performAll_chunked_cons] at hrun
    obtain ⟨s2, hchunk, hrest⟩ := andThen_next_iff.mp hrun
    obtain ⟨s1, hbytes, hbeside⟩ := andThen_next_iff.mp hchunk
    obtain ⟨s1', hbytes', h1⟩ := h.feed hbytes
    have h2 : SameStream s2 s1' := (sameStream_of_all_beside hhead hbeside).symm.trans h1
    obtain ⟨u, hrun', hu⟩ := ih htail h2 hrest
    exact ⟨u, by rw [feed_chunks_cons, hbytes', andThen_next, hrun'], hu⟩

/-- Where the bytes alone complete, the chunks with their transactions complete, with the same framing. -/
theorem SameStream.chunked_of_feed {chunks : List (List Byte × List Transaction)}
    (hb : ∀ p ∈ chunks, ∀ x ∈ p.2, besideTheStream x = true) (hl : s.config.legal = true)
    (hnow : ∀ p ∈ chunks, ∀ v, Transaction.now v ∈ p.2 → v < 2 ^ s.config.timeWidth) (h : SameStream s' s)
    (hrun : Machine.feed (chunks.flatMap (·.1)) s' = .next u) :
    ∃ t, performAll (chunked chunks) s = .next t ∧ SameStream t u := by
  induction chunks generalizing s s' with
  | nil => cases hrun; exact ⟨s, rfl, h.symm⟩
  | cons p chunks ih =>
    obtain ⟨hhead, htail⟩ := List.forall_mem_cons.mp hb
    obtain ⟨hnowHead, hnowTail⟩ := List.forall_mem_cons.mp hnow
    rw [feed_chunks_cons] at hrun
    obtain ⟨s1', hbytes', hrest⟩ := andThen_next_iff.mp hrun
    obtain ⟨s1, hbytes, h1⟩ := h.feed hbytes'
    have hc1 : s1.config = s.config :=
      feed_keeps (P := fun x => x.config = s.config) (fun _ _ _ hx hp => (perform_config hp).trans hx) rfl hbytes
    obtain ⟨s2, hbeside⟩ := all_beside_complete (s := s1) (by rwa [hc1]) hhead (by rwa [hc1])
    have h12 := sameStream_of_all_beside hhead hbeside
    have hc2 : s2.config = s.config := h12.config.trans hc1
    obtain ⟨t, hrun', ht⟩ := ih (s := s2) htail (by rwa [hc2]) (by rwa [hc2]) (h1.trans h12) hrest
    exact ⟨t, by rw [performAll_chunked_cons, hbytes, andThen_next, hbeside, andThen_next, hrun'], ht⟩

end Sys2Proof.Machine

open Sys2Proof Sys2Proof.Machine Sys2Proof.Spec

/-- Settles O53, chunk by chunk: what stands between the chunks completes and leaves what the next byte's framing
depends on. -/
theorem feedingIsChunkIndependent : Obligations.FeedingIsChunkIndependent := by
  intro chunks s hb
  refine ⟨fun t hrun => ?_, fun hl hnow u hrun => ?_⟩
  · obtain ⟨u, hrun', h⟩ := (SameStream.refl s).feed_of_chunked hb hrun
    exact ⟨u, hrun', h.sameFraming⟩
  · obtain ⟨t, hrun', h⟩ := (SameStream.refl s).chunked_of_feed hb hl hnow hrun
    exact ⟨t, hrun', h.sameFraming⟩
end
